-- ==== Sys2Proof/Word.lean ====
section
/-! DEFINITION. The word types of the core (10_state.md R16, R19; 00_scope.md R8): bytes, 16-bit words, register
numbers. Every value is unsigned. -/

namespace Sys2Proof

/-- An 8-bit value: a general register, a timer, a memory byte (R16, R26, R35). -/
abbrev Byte := BitVec 8

/-- A 16-bit value: `pc`, `I`, a stack entry, an instruction word (R19, R22, R23, R56). -/
abbrev Word := BitVec 16

/-- A register number 0..15 (R16): V0..VF. -/
abbrev Reg := Fin 16

/-- A key number 0..15 (R32). -/
abbrev Key := Fin 16

end Sys2Proof
end

