-- ==== Sys2Proof/Config.lean ====
section
/-! DEFINITION. What is fixed for the machine (00_scope.md R6): the sizes the state's types are made of, and the
values the spec leaves OPEN or draws freely, as constants with no body. The parameters that a test could show wrong
(program base, font, flag register) stand in Machine/Params.lean; `MEM_SIZE` = 4096 stands in the operations of
Machine/Ops.lean as the rules write it. -/

namespace Sys2Proof

/-- `STACK_DEPTH` (R6, R23; the spec's decision D5). -/
abbrev Config.stackDepth : Nat := 16

/-- `DISP_H`, the display's rows (R6, R31). -/
abbrev Config.dispRows : Nat := 32

/-- `DISP_W`, the display's columns (R6, R31). -/
abbrev Config.dispCols : Nat := 64

/-- `BULK_ADVANCES_I`, an OPEN Boolean parameter (R6, R115, D7): whether `FX55` and `FX65` advance `I`. It has no
body, so every claim holds for both values. Log 5, safe. -/
opaque Config.bulkAdvancesI : Bool

/-- The random oracle (R29, R86, D22): the byte of the k-th draw. A free value with no body: nothing is known of any
byte of it. Log 1, safe. -/
opaque Config.randomByte : Nat → Byte

/-- `SNAPSHOT_VERSION`, the OPEN version tag of a persisted snapshot (R6, R132, D28). Log 9, safe. -/
opaque Config.snapshotVersion : Nat

end Sys2Proof
end

