-- ==== Sys2Proof/Syntax.lean ====
section
/-! DEFINITION. The instructions (30_encoding.md R63): one constructor for each of the 34 rows of opcode_table.json,
with the fields of its format (R57, R59) as operands. -/

namespace Sys2Proof

/-- An instruction. `x`, `y` are register numbers, `nn` an 8-bit immediate, `nnn` a 12-bit address, `n` a row count
(R57, R58). Each docstring gives the pattern, the mnemonic and the rule that gives the meaning. -/
inductive Instr where
  /-- `00E0` CLS, R95 -/
  | cls
  /-- `00EE` RET, R89 -/
  | ret
  /-- `1NNN` JP NNN, R87 -/
  | jp (nnn : BitVec 12)
  /-- `2NNN` CALL NNN, R88 -/
  | call (nnn : BitVec 12)
  /-- `3XNN` SE VX, NN, R91 -/
  | seImm (x : Reg) (nn : Byte)
  /-- `4XNN` SNE VX, NN, R92 -/
  | sneImm (x : Reg) (nn : Byte)
  /-- `5XY0` SE VX, VY, R93 -/
  | seReg (x y : Reg)
  /-- `6XNN` LD VX, NN, R73 -/
  | ldImm (x : Reg) (nn : Byte)
  /-- `7XNN` ADD VX, NN, R74 -/
  | addImm (x : Reg) (nn : Byte)
  /-- `8XY0` LD VX, VY, R75 -/
  | ldReg (x y : Reg)
  /-- `8XY1` OR VX, VY, R76 -/
  | orReg (x y : Reg)
  /-- `8XY2` AND VX, VY, R77 -/
  | andReg (x y : Reg)
  /-- `8XY3` XOR VX, VY, R78 -/
  | xorReg (x y : Reg)
  /-- `8XY4` ADD VX, VY, R79 -/
  | addReg (x y : Reg)
  /-- `8XY5` SUB VX, VY, R80 -/
  | subReg (x y : Reg)
  /-- `8XY6` SHR VX, R81; `y` is decoded and ignored (R72) -/
  | shr (x y : Reg)
  /-- `8XY7` SUBN VX, VY, R82 -/
  | subnReg (x y : Reg)
  /-- `8XYE` SHL VX, R83; `y` is decoded and ignored (R72) -/
  | shl (x y : Reg)
  /-- `9XY0` SNE VX, VY, R94 -/
  | sneReg (x y : Reg)
  /-- `ANNN` LD I, NNN, R109 -/
  | ldI (nnn : BitVec 12)
  /-- `BNNN` JP V0, NNN, R90 -/
  | jpV0 (nnn : BitVec 12)
  /-- `CXNN` RND VX, NN, R86 -/
  | rnd (x : Reg) (nn : Byte)
  /-- `DXYN` DRW VX, VY, N, R96; the row count `n` is 0..15 (R58), which WellFormed checks -/
  | drw (x y : Reg) (n : Nat)
  /-- `EX9E` SKP VX, R104 -/
  | skp (x : Reg)
  /-- `EXA1` SKNP VX, R105 -/
  | sknp (x : Reg)
  /-- `FX07` LD VX, DT, R99 -/
  | ldVxDt (x : Reg)
  /-- `FX0A` LD VX, K, R106 -/
  | ldVxK (x : Reg)
  /-- `FX15` LD DT, VX, R100 -/
  | ldDtVx (x : Reg)
  /-- `FX18` LD ST, VX, R101 -/
  | ldStVx (x : Reg)
  /-- `FX1E` ADD I, VX, R110 -/
  | addIVx (x : Reg)
  /-- `FX29` LD F, VX, R111 -/
  | ldFVx (x : Reg)
  /-- `FX33` LD B, VX, R112 -/
  | ldBVx (x : Reg)
  /-- `FX55` LD [I], VX, R113 -/
  | ldMemVx (x : Reg)
  /-- `FX65` LD VX, [I], R114 -/
  | ldVxMem (x : Reg)
  deriving DecidableEq, Repr

end Sys2Proof
end

