-- ==== Sys2Proof/WellFormed.lean ====
section
/-! DEFINITION. Which instruction terms the encoding has a word for. The types of the operands already hold register
numbers, immediates and addresses to their widths (30_encoding.md R57); the one operand held as a count, the row count
of `DXYN`, is checked here. -/

namespace Sys2Proof

/-- The row count of `DXYN` fits its 4-bit field: "`n` is a 4-bit unsigned row count, 0..15" (R58). -/
def rowCountFits (n : Nat) : Bool := decide (n ≤ 15)

/-- An instruction that some instruction word encodes. -/
def Instr.wellFormed : Instr → Bool
  | .drw _ _ n => rowCountFits n
  | .cls | .ret => true
  | .jp _ | .call _ | .ldI _ | .jpV0 _ => true
  | .seImm _ _ | .sneImm _ _ | .ldImm _ _ | .addImm _ _ | .rnd _ _ => true
  | .seReg _ _ | .sneReg _ _ => true
  | .ldReg _ _ | .orReg _ _ | .andReg _ _ | .xorReg _ _ => true
  | .addReg _ _ | .subReg _ _ | .shr _ _ | .subnReg _ _ | .shl _ _ => true
  | .skp _ | .sknp _ => true
  | .ldVxDt _ | .ldVxK _ | .ldDtVx _ | .ldStVx _ => true
  | .addIVx _ | .ldFVx _ | .ldBVx _ | .ldMemVx _ | .ldVxMem _ => true

/-- `Instr.wellFormed` as a proposition. -/
abbrev Instr.WellFormed (i : Instr) : Prop := i.wellFormed = true

end Sys2Proof
end

