-- ==== Sys2Proof/Decode.lean ====
section
/-! DEFINITION. Decoding (30_encoding.md R57, R59, R63, R64, R65, R66), total on any bytes and rejecting by name; after
it the encoder, written from the same table, and the decoder over words as opcode_table.json numbers them. -/

namespace Sys2Proof

/-! ## Fields of the instruction word (R57) -/

/-- `op`, `w[15:12]`. -/
def fieldOp (w : Word) : BitVec 4 := w.extractLsb' 12 4

/-- `x`, `w[11:8]`, a register number. -/
def fieldX (w : Word) : Reg := (w.extractLsb' 8 4).toFin

/-- `y`, `w[7:4]`, a register number. -/
def fieldY (w : Word) : Reg := (w.extractLsb' 4 4).toFin

/-- `n`, `w[3:0]`, a count or the sub-opcode of groups 5, 8 and 9. -/
def fieldN (w : Word) : BitVec 4 := w.extractLsb' 0 4

/-- `nn`, `w[7:0]`, an immediate or the sub-opcode of groups E and F. -/
def fieldNN (w : Word) : Byte := w.extractLsb' 0 8

/-- `nnn`, `w[11:0]`, an address. -/
def fieldNNN (w : Word) : BitVec 12 := w.extractLsb' 0 12

/-- The word fetched from two consecutive bytes: the first byte is bits 15..8 (20_memory.md R37). -/
def wordOfBytes (first second : Byte) : Word := first ++ second

/-! ## The decoder (R64) -/

/-- Why bytes decode to no instruction: the illegal words of R65, group by group, or too few bytes to hold a word. -/
inductive DecodeReject where
  /-- fewer than two bytes -/
  | truncated
  /-- `0NNN` other than `00E0` and `00EE` (R65, R66) -/
  | group0 (w : Word)
  /-- `5XYn` with `n` not 0 -/
  | group5 (w : Word)
  /-- `8XYn` with `n` in 8, 9, A, B, C, D, F -/
  | group8 (w : Word)
  /-- `9XYn` with `n` not 0 -/
  | group9 (w : Word)
  /-- `EXnn` with `nn` not 9E or A1 -/
  | groupE (w : Word)
  /-- `FXnn` with `nn` not 07, 0A, 15, 18, 1E, 29, 33, 55 or 65 -/
  | groupF (w : Word)
  deriving DecidableEq, Repr

/-- Group 0: exact-word match (R64). -/
def decodeGroup0 (w : Word) : Except DecodeReject Instr :=
  if w = 0x00E0#16 then .ok .cls
  else if w = 0x00EE#16 then .ok .ret
  else .error (.group0 w)

/-- Group 5, keyed by the low nibble (R64). -/
def decodeGroup5 (w : Word) : Except DecodeReject Instr :=
  match (fieldN w).toNat with
  | 0x0 => .ok (.seReg (fieldX w) (fieldY w))
  | _ => .error (.group5 w)

/-- Group 8, keyed by the low nibble (R64). -/
def decodeGroup8 (w : Word) : Except DecodeReject Instr :=
  match (fieldN w).toNat with
  | 0x0 => .ok (.ldReg (fieldX w) (fieldY w))
  | 0x1 => .ok (.orReg (fieldX w) (fieldY w))
  | 0x2 => .ok (.andReg (fieldX w) (fieldY w))
  | 0x3 => .ok (.xorReg (fieldX w) (fieldY w))
  | 0x4 => .ok (.addReg (fieldX w) (fieldY w))
  | 0x5 => .ok (.subReg (fieldX w) (fieldY w))
  | 0x6 => .ok (.shr (fieldX w) (fieldY w))
  | 0x7 => .ok (.subnReg (fieldX w) (fieldY w))
  | 0xE => .ok (.shl (fieldX w) (fieldY w))
  | _ => .error (.group8 w)

/-- Group 9, keyed by the low nibble (R64). -/
def decodeGroup9 (w : Word) : Except DecodeReject Instr :=
  match (fieldN w).toNat with
  | 0x0 => .ok (.sneReg (fieldX w) (fieldY w))
  | _ => .error (.group9 w)

/-- Group E, keyed by the whole low byte (R64; 90_conflicts.md C2). -/
def decodeGroupE (w : Word) : Except DecodeReject Instr :=
  if fieldNN w = 0x9E#8 then .ok (.skp (fieldX w))
  else if fieldNN w = 0xA1#8 then .ok (.sknp (fieldX w))
  else .error (.groupE w)

/-- Group F, keyed by the whole low byte (R64; 90_conflicts.md C2). -/
def decodeGroupF (w : Word) : Except DecodeReject Instr :=
  if fieldNN w = 0x07#8 then .ok (.ldVxDt (fieldX w))
  else if fieldNN w = 0x0A#8 then .ok (.ldVxK (fieldX w))
  else if fieldNN w = 0x15#8 then .ok (.ldDtVx (fieldX w))
  else if fieldNN w = 0x18#8 then .ok (.ldStVx (fieldX w))
  else if fieldNN w = 0x1E#8 then .ok (.addIVx (fieldX w))
  else if fieldNN w = 0x29#8 then .ok (.ldFVx (fieldX w))
  else if fieldNN w = 0x33#8 then .ok (.ldBVx (fieldX w))
  else if fieldNN w = 0x55#8 then .ok (.ldMemVx (fieldX w))
  else if fieldNN w = 0x65#8 then .ok (.ldVxMem (fieldX w))
  else .error (.groupF w)

/-- Decode of an instruction word: "Decode is a total function from all 65536 words to one instruction of rule R63 or
`DecodeError`" (R64). -/
def decodeWord (w : Word) : Except DecodeReject Instr :=
  match (fieldOp w).toNat with
  | 0x0 => decodeGroup0 w
  | 0x1 => .ok (.jp (fieldNNN w))
  | 0x2 => .ok (.call (fieldNNN w))
  | 0x3 => .ok (.seImm (fieldX w) (fieldNN w))
  | 0x4 => .ok (.sneImm (fieldX w) (fieldNN w))
  | 0x5 => decodeGroup5 w
  | 0x6 => .ok (.ldImm (fieldX w) (fieldNN w))
  | 0x7 => .ok (.addImm (fieldX w) (fieldNN w))
  | 0x8 => decodeGroup8 w
  | 0x9 => decodeGroup9 w
  | 0xA => .ok (.ldI (fieldNNN w))
  | 0xB => .ok (.jpV0 (fieldNNN w))
  | 0xC => .ok (.rnd (fieldX w) (fieldNN w))
  | 0xD => .ok (.drw (fieldX w) (fieldY w) (fieldN w).toNat)
  | 0xE => decodeGroupE w
  | _ => decodeGroupF w

/-- Decode of a list of bytes: the decoder always consumes exactly two bytes (R56) and hands back the rest. -/
def decode : List Byte → Except DecodeReject (Instr × List Byte)
  | first :: second :: rest =>
    match decodeWord (wordOfBytes first second) with
    | .ok i => .ok (i, rest)
    | .error e => .error e
  | _ => .error .truncated

/-! ## The encoder (R59, R63) -/

/-- The four bits of a register number. -/
def regBits (r : Reg) : BitVec 4 := BitVec.ofFin r

/-- The word of an instruction, digit by digit as R63's patterns give it. -/
def encode : Instr → Word
  | .cls => 0x00E0#16
  | .ret => 0x00EE#16
  | .jp nnn => 0x1#4 ++ nnn
  | .call nnn => 0x2#4 ++ nnn
  | .seImm x nn => 0x3#4 ++ regBits x ++ nn
  | .sneImm x nn => 0x4#4 ++ regBits x ++ nn
  | .seReg x y => 0x5#4 ++ regBits x ++ regBits y ++ 0x0#4
  | .ldImm x nn => 0x6#4 ++ regBits x ++ nn
  | .addImm x nn => 0x7#4 ++ regBits x ++ nn
  | .ldReg x y => 0x8#4 ++ regBits x ++ regBits y ++ 0x0#4
  | .orReg x y => 0x8#4 ++ regBits x ++ regBits y ++ 0x1#4
  | .andReg x y => 0x8#4 ++ regBits x ++ regBits y ++ 0x2#4
  | .xorReg x y => 0x8#4 ++ regBits x ++ regBits y ++ 0x3#4
  | .addReg x y => 0x8#4 ++ regBits x ++ regBits y ++ 0x4#4
  | .subReg x y => 0x8#4 ++ regBits x ++ regBits y ++ 0x5#4
  | .shr x y => 0x8#4 ++ regBits x ++ regBits y ++ 0x6#4
  | .subnReg x y => 0x8#4 ++ regBits x ++ regBits y ++ 0x7#4
  | .shl x y => 0x8#4 ++ regBits x ++ regBits y ++ 0xE#4
  | .sneReg x y => 0x9#4 ++ regBits x ++ regBits y ++ 0x0#4
  | .ldI nnn => 0xA#4 ++ nnn
  | .jpV0 nnn => 0xB#4 ++ nnn
  | .rnd x nn => 0xC#4 ++ regBits x ++ nn
  | .drw x y n => 0xD#4 ++ regBits x ++ regBits y ++ BitVec.ofNat 4 n
  | .skp x => 0xE#4 ++ regBits x ++ 0x9E#8
  | .sknp x => 0xE#4 ++ regBits x ++ 0xA1#8
  | .ldVxDt x => 0xF#4 ++ regBits x ++ 0x07#8
  | .ldVxK x => 0xF#4 ++ regBits x ++ 0x0A#8
  | .ldDtVx x => 0xF#4 ++ regBits x ++ 0x15#8
  | .ldStVx x => 0xF#4 ++ regBits x ++ 0x18#8
  | .addIVx x => 0xF#4 ++ regBits x ++ 0x1E#8
  | .ldFVx x => 0xF#4 ++ regBits x ++ 0x29#8
  | .ldBVx x => 0xF#4 ++ regBits x ++ 0x33#8
  | .ldMemVx x => 0xF#4 ++ regBits x ++ 0x55#8
  | .ldVxMem x => 0xF#4 ++ regBits x ++ 0x65#8

/-! ## Words as opcode_table.json numbers them -/

/-- The two bytes of a table word of `nbits` bits as memory holds them: bits 15..8 first (R37). Every bit above
`nbits` is 0 (log 8). -/
def tableBytes (nbits w : Nat) : List Byte :=
  let v := w % 2 ^ nbits
  [BitVec.ofNat 8 (v / 256), BitVec.ofNat 8 v]

/-- The instruction the decoder reads from a table word. -/
def decodeTableWord (nbits w : Nat) : Option Instr :=
  match decode (tableBytes nbits w) with
  | .ok (i, _) => some i
  | .error _ => none

end Sys2Proof
end

