-- ==== Sys2Proof/Machine/Params.lean ====
section
/-! DEFINITION. The parameters of 00_scope.md R6 that the spec decided and that a test could show wrong: the flag
register, the program base, the font. (The sizes and the open values are in Config.lean.) -/

namespace Sys2Proof.Machine

/-- VF, register 15, the flag register (10_state.md R18, D2). -/
def vf : Reg := 15

/-- `PROGRAM_BASE` = 0x200 (R6, 20_memory.md R44, D3). -/
def programBase : Nat := 0x200

/-- `FONT_BASE` = 0x000 (R6, 20_memory.md R44, D4). -/
def fontBase : Nat := 0x000

/-- The bytes of one glyph (20_memory.md R45). -/
def glyphBytes : Nat := 5

/-- `FONT_DATA`: 16 glyphs of 5 bytes each, glyph d at `FONT_BASE + 5*d` (20_memory.md R45, D4). -/
def fontData : List Byte :=
  [0xF0, 0x90, 0x90, 0x90, 0xF0] ++ [0x20, 0x60, 0x20, 0x20, 0x70] ++
  [0xF0, 0x10, 0xF0, 0x80, 0xF0] ++ [0xF0, 0x10, 0xF0, 0x10, 0xF0] ++
  [0x90, 0x90, 0xF0, 0x10, 0x10] ++ [0xF0, 0x80, 0xF0, 0x10, 0xF0] ++
  [0xF0, 0x80, 0xF0, 0x90, 0xF0] ++ [0xF0, 0x10, 0x20, 0x40, 0x40] ++
  [0xF0, 0x90, 0xF0, 0x90, 0xF0] ++ [0xF0, 0x90, 0xF0, 0x10, 0xF0] ++
  [0xF0, 0x90, 0xF0, 0x90, 0x90] ++ [0xE0, 0x90, 0xE0, 0x90, 0xE0] ++
  [0xF0, 0x80, 0x80, 0x80, 0xF0] ++ [0xE0, 0x90, 0x90, 0x90, 0xE0] ++
  [0xF0, 0x80, 0xF0, 0x80, 0xF0] ++ [0xF0, 0x80, 0xF0, 0x80, 0x80]

end Sys2Proof.Machine
end

