-- ==== Sys2Proof/Machine/State.lean ====
section
/-! DEFINITION. The state of the core as plain data (10_state.md R15..R34): everything the spec gives the machine,
the reasons a step can stop, and the state after reset. -/

namespace Sys2Proof.Machine

/-- `mem` (20_memory.md R35): the bytes that differ from the reset contents, addresses strictly rising. What an
unlisted address reads as is `Memory.initial`; the canonical form is `Memory.wf` (both in Machine/Ops.lean). Log 2. -/
abbrev Memory := List Host.Cell

/-- `disp[r][c]` (R31): 32 rows of 64 one-bit cells, `true` for 1. -/
abbrev Display := Vector (Vector Bool Config.dispCols) Config.dispRows

/-- The four exceptions (60_exceptions.md R116). -/
inductive FaultKind where
  /-- an unrecognized instruction word -/
  | decodeError
  /-- `2NNN` with `sp = STACK_DEPTH` -/
  | stackOverflow
  /-- `00EE` with `sp = 0` -/
  | stackUnderflow
  /-- a memory address above 4095, or a key or digit index above 15 -/
  | outOfBounds
  deriving DecidableEq, Repr

/-- `FaultInfo` (R28): what the core records of a fault. -/
structure FaultInfo where
  /-- which exception -/
  kind : FaultKind
  /-- the address the faulting instruction was fetched from -/
  addr : Word
  /-- the instruction word; none only when the fetch itself faulted -/
  word : Option Word
  /-- for `OutOfBounds`, the first out-of-range address, or the key or font index; none for the other kinds -/
  bad : Option Nat
  deriving DecidableEq, Repr

/-- The execution status (R27). -/
inductive Status where
  /-- the engine executes instructions -/
  | running
  /-- an `FX0A` waits for a key-down transition; the key goes to `V[x]` -/
  | waitingKey (x : Reg)
  /-- a fault stopped the engine; only the host's `load` and `restore` leave it -/
  | halted (info : FaultInfo)
  deriving DecidableEq, Repr

/-- The whole state (R15), and one field of the model's own, `draws`. -/
structure State where
  /-- memory, 4096 bytes (R35) -/
  mem : Memory
  /-- general registers V0..VF (R16) -/
  V : Vector Byte 16
  /-- index register (R22) -/
  I : Word
  /-- program counter (R19) -/
  pc : Word
  /-- number of live stack entries, 0..16 (R23) -/
  sp : Fin (Config.stackDepth + 1)
  /-- return addresses (R23, R24) -/
  stack : Vector Word Config.stackDepth
  /-- delay timer (R26) -/
  dt : Byte
  /-- sound timer (R26) -/
  st : Byte
  /-- display buffer (R31) -/
  disp : Display
  /-- host-owned key state, true for pressed (R32) -/
  key : Vector Bool 16
  /-- execution status and fault record (R27, R28) -/
  status : Status
  /-- THE MODEL'S OWN: how many random bytes have been drawn (R29 keeps the oracle outside the state; this counter
  makes every draw a fresh free value). Log 1. -/
  draws : Nat
  deriving DecidableEq, Repr

/-- Why a step stops outside the architecture: for no reason. The core's own four exceptions are effects on the state
(R118), taken as a next state whose status is `Halted`; the spec leaves no other behaviour without an effect. So this
type has no constructor, and no step can end in a fault. Log 3, safe. -/
inductive Fault
  deriving DecidableEq, Repr

/-- Why an instruction has no meaning. -/
inductive Refusal where
  /-- Raised by `exec` for an instruction that has no meaning yet, named by its mnemonic; no arm of `exec` raises it
  now. Safe: nothing is proved of a run that meets it. -/
  | notModelled (mnemonic : String)
  deriving DecidableEq, Repr

/-- A display with every cell 0. -/
def Display.blank : Display := Vector.replicate Config.dispRows (Vector.replicate Config.dispCols false)

/-- The state after reset, at creation (R34, 70_reset_and_hazards.md R137): nothing is listed in memory, so that every
address reads as its reset contents. `draws` is the model's own field (log 1). -/
def State.reset : State where
  mem := []
  V := Vector.replicate 16 0
  I := 0
  pc := BitVec.ofNat 16 programBase
  sp := 0
  stack := Vector.replicate Config.stackDepth 0
  dt := 0
  st := 0
  disp := Display.blank
  key := Vector.replicate 16 false
  status := .running
  draws := 0

end Sys2Proof.Machine
end

