-- ==== Sys2Proof/Machine/Ops.lean ====
section
/-! DEFINITION. The named operations over memory, registers, the call stack, the display and the status: every read
and write of state by an instruction goes through one of these. Taking an exception (60_exceptions.md R118) is one
operation, `takeException`. -/

namespace Sys2Proof.Machine

/-! ## Memory (20_memory.md) -/

/-- What an unlisted address reads as: the contents after reset (10_state.md R34), `FONT_DATA` in the font region (R45)
and 0 everywhere else. -/
def Memory.initial (a : Nat) : Byte :=
  if a < fontBase then 0 else fontData.getD (a - fontBase) 0

/-- The byte at address `a` (R40). Callers check the range first (`outOfRange`). -/
def Memory.read : Memory → Nat → Byte
  | [], a => Memory.initial a
  | c :: m, a => if c.1 = a then c.2 else Memory.read m a

/-- The list without the entry of address `a`. -/
def Memory.unlist (m : Memory) (a : Nat) : Memory := m.filter (fun c => c.1 != a)

/-- The list with an entry for address `a`, put before the first higher address. -/
def Memory.list (a : Nat) (b : Byte) : Memory → Memory
  | [] => [(a, b)]
  | c :: m => if a < c.1 then (a, b) :: c :: m else c :: Memory.list a b m

/-- The memory after byte `b` is written at address `a`: "A write changes only the byte addressed" (R40). Writing the
reset contents removes the entry, so that equal memories are equal lists. -/
def Memory.write (m : Memory) (a : Nat) (b : Byte) : Memory :=
  if b = Memory.initial a then m.unlist a else Memory.list a b (m.unlist a)

/-- The canonical form: addresses strictly rising and below 4096, no entry equal to the reset contents. -/
abbrev Memory.wf (m : Memory) : Prop :=
  m.Pairwise (fun c d => c.1 < d.1) ∧ ∀ c ∈ m, c.1 < 4096 ∧ c.2 ≠ Memory.initial c.1

/-- The bounds check of an access to the `n` bytes at `a` (R41, R42, R43): the lowest address of them above 4095, if
there is one. The address sum is exact. -/
def outOfRange (a n : Nat) : Option Nat :=
  if 0 < n ∧ a + n - 1 > 4095 then some (max a 4096) else none

/-- The `n` bytes at `a, a+1, …`, in that order (R39). -/
def Memory.readBytes (m : Memory) : Nat → Nat → List Byte
  | _, 0 => []
  | a, n + 1 => m.read a :: Memory.readBytes m (a + 1) n

/-- The memory after bytes are written at `a, a+1, …`, in that order (R39). -/
def Memory.writeBytes : Memory → Nat → List Byte → Memory
  | m, _, [] => m
  | m, a, b :: bs => Memory.writeBytes (m.write a b) (a + 1) bs

/-! ## Writes of single fields -/

/-- The state with another memory. -/
def State.setMem (s : State) (m : Memory) : State := { s with mem := m }
/-- `I <- v` (10_state.md R22). -/
def State.setI (s : State) (v : Word) : State := { s with I := v }
/-- `pc <- t` (R19). -/
def State.setPc (s : State) (t : Word) : State := { s with pc := t }
/-- `dt <- v` (R26). -/
def State.setDt (s : State) (v : Byte) : State := { s with dt := v }
/-- `st <- v` (R26). -/
def State.setSt (s : State) (v : Byte) : State := { s with st := v }
/-- The state with another display (R31). -/
def State.setDisp (s : State) (d : Display) : State := { s with disp := d }
/-- `status <- v` (R27). -/
def State.setStatus (s : State) (v : Status) : State := { s with status := v }

/-! ## General registers (10_state.md R16, R17) -/

/-- `V[r]`. -/
def State.getV (s : State) (r : Reg) : Byte := s.V[r]

/-- `V[r] <- b`. -/
def State.setV (s : State) (r : Reg) (b : Byte) : State := { s with V := s.V.set r b }

/-- `V[0..x]`, in that order: what `FX55` stores (R113). -/
def State.regsUpTo (s : State) (x : Reg) : List Byte := s.V.toList.take (x.val + 1)

/-- `V[0..x]` loaded from a list of bytes, the registers above `x` unchanged (R114). -/
def State.loadRegsUpTo (s : State) (x : Reg) (bytes : List Byte) : State :=
  { s with V := Vector.ofFn fun k : Fin 16 => if k ≤ x then bytes.getD k.val 0 else s.V[k] }

/-! ## The call stack (10_state.md R23, R24) -/

/-- Push a return address: none when the stack is full. -/
def State.push (s : State) (v : Word) : Option State :=
  if h : s.sp.val < Config.stackDepth then
    some { s with stack := s.stack.set s.sp.val v, sp := ⟨s.sp.val + 1, by omega⟩ }
  else none

/-- Pop a return address: none when the stack is empty. The popped entry keeps its value (R24). -/
def State.pop (s : State) : Option (Word × State) :=
  if h : 0 < s.sp.val then
    some (s.stack[s.sp.val - 1]'(by omega), { s with sp := ⟨s.sp.val - 1, by omega⟩ })
  else none

/-! ## The display (10_state.md R31) -/

/-- `disp[r][c]`. -/
def Display.cell (d : Display) (r : Fin Config.dispRows) (c : Fin Config.dispCols) : Bool := (d[r])[c]

/-- `disp[r][c] <- b`. -/
def Display.setCell (d : Display) (r : Fin Config.dispRows) (c : Fin Config.dispCols) (b : Bool) : Display :=
  d.set r ((d[r]).set c b)

/-! ## The keys (10_state.md R32) -/

/-- `key[k]`. -/
def State.keyDown (s : State) (k : Key) : Bool := s.key[k]

/-- `key[k] <- pressed`, which only the host does. -/
def State.setKeyBit (s : State) (k : Key) (pressed : Bool) : State := { s with key := s.key.set k pressed }

/-! ## The random draw (00_scope.md R10, 10_state.md R29) -/

/-- `Draw8()`: one free byte, and the state in which it has been drawn. -/
def State.draw8 (s : State) : Byte × State :=
  (Config.randomByte s.draws, { s with draws := s.draws + 1 })

/-! ## Fetch (20_memory.md R37, R49; 30_encoding.md R60, R62) -/

/-- `MemRead(pc, 2)` as a word, or the first out-of-range address (R49). -/
def fetchWord (s : State) : Except Nat Word :=
  match outOfRange s.pc.toNat 2 with
  | some bad => .error bad
  | none => .ok (wordOfBytes (s.mem.read s.pc.toNat) (s.mem.read (s.pc.toNat + 1)))

/-- `pc <- (pc + 2) mod 2^16`: the fetch advance (R62), and what a taken skip adds (R91). -/
def State.advancePc (s : State) : State := s.setPc (s.pc + 2)

/-! ## Taking an exception (60_exceptions.md R118) -/

/-- Take an exception: `pc` is the faulting instruction's own address, and the status records the fault. `s` is the
state before any other change of the step, so that nothing else differs from before the step. There is no handler and
no return from an exception (R119, R121). -/
def takeException (kind : FaultKind) (addr : Word) (word : Option Word) (bad : Option Nat) (s : State) : State :=
  (s.setPc addr).setStatus (.halted { kind, addr, word, bad })

/-- `raise` in the execution of a decoded instruction (00_scope.md R10): the instruction was fetched from `pc - 2`, and
its word is its encoding (log 6). The step's outcome is the halted state (log 3). -/
def raise (kind : FaultKind) (i : Instr) (bad : Option Nat) (s : State) : Host.Outcome State Fault Refusal :=
  .next (takeException kind (s.pc - 2) (some (encode i)) bad s)

end Sys2Proof.Machine
end

