-- ==== Sys2Proof/Machine/Flags.lean ====
section
/-! DEFINITION. The values written to VF as a flag (10_state.md R25) and the order of the flag write: flag first,
result second (00_scope.md R11; 40_alu.md R85; 90_conflicts.md C1). -/

namespace Sys2Proof.Machine

/-- A flag as the byte VF receives. -/
def flagByte (flag : Bool) : Byte := if flag then 1 else 0

/-- The carry of an add: `a + b > 255` (R79). -/
def carryFlag (a b : Byte) : Bool := decide (a.toNat + b.toNat > 255)

/-- No borrow: minuend ≥ subtrahend (R80, R82). -/
def noBorrowFlag (minuend subtrahend : Byte) : Bool := decide (minuend.toNat ≥ subtrahend.toNat)

/-- The bit a right shift moves out, bit 0 (R81). -/
def shiftedOutRight (a : Byte) : Bool := a.getLsbD 0

/-- The bit a left shift moves out, bit 7 (R83). -/
def shiftedOutLeft (a : Byte) : Bool := a.getLsbD 7

/-- `V[F] <- flag`, then `V[x] <- result`: with `x = F` the result is what VF ends with (R85). -/
def State.writeFlagThenResult (s : State) (flag : Bool) (x : Reg) (result : Byte) : State :=
  (s.setV vf (flagByte flag)).setV x result

end Sys2Proof.Machine
end

