-- ==== Sys2Proof/Machine/Operands.lean ====
section
/-! DEFINITION. The operand forms: the zero-extended 12-bit address (30_encoding.md R58), the index that must be 0..15
(a key or a digit), the bytes at `I` with their bounds check (44_index_memory.md), the condition of a skip, the digits
of a byte. -/

namespace Sys2Proof.Machine

/-- `zext_16(nnn)` (R58): an address operand as a 16-bit value. -/
def addrOperand (nnn : BitVec 12) : Word := nnn.zeroExtend 16

/-- A register's value as an index 0..15; none when it is above 15 (43_timers_input.md R104, 44_index_memory.md R111). -/
def indexOperand (v : Byte) : Option (Fin 16) :=
  if h : v.toNat ≤ 15 then some ⟨v.toNat, by omega⟩ else none

/-- Run `k` with the index in `V[x]`, or raise `OutOfBounds` with the register's value as `bad` (R104, R105, R111). -/
def withIndex (i : Instr) (x : Reg) (s : State) (k : Fin 16 → State) : Host.Outcome State Fault Refusal :=
  match indexOperand (s.getV x) with
  | some d => .next (k d)
  | none => raise .outOfBounds i (some (s.getV x).toNat) s

/-- Run `k` when the `n` bytes at `I` are all in memory, or raise `OutOfBounds` with the lowest address that is not
(20_memory.md R43): the check comes before any write. -/
def withBytesAtI (i : Instr) (n : Nat) (s : State) (k : State) : Host.Outcome State Fault Refusal :=
  match outOfRange s.I.toNat n with
  | some bad => raise .outOfBounds i (some bad) s
  | none => .next k

/-- The `n` bytes at `I` (R39). -/
def State.bytesAtI (s : State) (n : Nat) : List Byte := s.mem.readBytes s.I.toNat n

/-- Bytes stored at `I, I+1, …` (R39). -/
def State.storeAtI (s : State) (bytes : List Byte) : State := s.setMem (s.mem.writeBytes s.I.toNat bytes)

/-- `I` after `FX55` or `FX65` has moved `V[0..x]` (44_index_memory.md R115): the address after the last byte moved
when `BULK_ADVANCES_I` is true, unchanged when it is false. -/
def indexAfterTransfer (x : Reg) (i : Word) : Word :=
  if Config.bulkAdvancesI then i + BitVec.ofNat 16 (x.val + 1) else i

/-- The decimal digits of a byte: hundreds, tens, ones (44_index_memory.md R112). -/
def bcdDigits (v : Byte) : List Byte :=
  [BitVec.ofNat 8 (v.toNat / 100), BitVec.ofNat 8 (v.toNat / 10 % 10), BitVec.ofNat 8 (v.toNat % 10)]

/-- `if condition then pc <- pc + 2` (41_control.md, common form of the skips). -/
def State.skipIf (s : State) (condition : Bool) : State :=
  if condition then s.advancePc else s

end Sys2Proof.Machine
end

