-- ==== Sys2Proof/Machine/Alu.lean ====
section
/-! DEFINITION. Register loads, arithmetic and random (40_alu.md R73..R86). Each meaning runs on the state after the
fetch advance; operands are read before any write. -/

namespace Sys2Proof.Machine

/-- `6XNN`, R73. -/
def execLdImm (x : Reg) (nn : Byte) (s : State) : Host.Outcome State Fault Refusal :=
  .next (s.setV x nn)

/-- `7XNN`, R74: no flag. -/
def execAddImm (x : Reg) (nn : Byte) (s : State) : Host.Outcome State Fault Refusal :=
  .next (s.setV x (s.getV x + nn))

/-- `8XY0`, R75. -/
def execLdReg (x y : Reg) (s : State) : Host.Outcome State Fault Refusal :=
  .next (s.setV x (s.getV y))

/-- `8XY1`, R76: no flag. -/
def execOrReg (x y : Reg) (s : State) : Host.Outcome State Fault Refusal :=
  .next (s.setV x (s.getV x ||| s.getV y))

/-- `8XY2`, R77: no flag. -/
def execAndReg (x y : Reg) (s : State) : Host.Outcome State Fault Refusal :=
  .next (s.setV x (s.getV x &&& s.getV y))

/-- `8XY3`, R78: no flag. -/
def execXorReg (x y : Reg) (s : State) : Host.Outcome State Fault Refusal :=
  .next (s.setV x (s.getV x ^^^ s.getV y))

/-- `8XY4`, R79. -/
def execAddReg (x y : Reg) (s : State) : Host.Outcome State Fault Refusal :=
  .next (s.writeFlagThenResult (carryFlag (s.getV x) (s.getV y)) x (s.getV x + s.getV y))

/-- `8XY5`, R80. -/
def execSubReg (x y : Reg) (s : State) : Host.Outcome State Fault Refusal :=
  .next (s.writeFlagThenResult (noBorrowFlag (s.getV x) (s.getV y)) x (s.getV x - s.getV y))

/-- `8XY6`, R81: `V[x]` is shifted in place, `y` is ignored. -/
def execShr (x _y : Reg) (s : State) : Host.Outcome State Fault Refusal :=
  .next (s.writeFlagThenResult (shiftedOutRight (s.getV x)) x (s.getV x >>> 1))

/-- `8XY7`, R82. -/
def execSubnReg (x y : Reg) (s : State) : Host.Outcome State Fault Refusal :=
  .next (s.writeFlagThenResult (noBorrowFlag (s.getV y) (s.getV x)) x (s.getV y - s.getV x))

/-- `8XYE`, R83: `V[x]` is shifted in place, `y` is ignored. -/
def execShl (x _y : Reg) (s : State) : Host.Outcome State Fault Refusal :=
  .next (s.writeFlagThenResult (shiftedOutLeft (s.getV x)) x (s.getV x <<< 1))

/-- `CXNN`, R86: exactly one draw. -/
def execRnd (x : Reg) (nn : Byte) (s : State) : Host.Outcome State Fault Refusal :=
  .next (s.draw8.2.setV x (s.draw8.1 &&& nn))

end Sys2Proof.Machine
end

