-- ==== Sys2Proof/Machine/Control.lean ====
section
/-! DEFINITION. Jumps, call, return and the register skips (41_control.md R87..R94). `pc` is A + 2 when a meaning
starts. -/

namespace Sys2Proof.Machine

/-- `1NNN`, R87. -/
def execJp (nnn : BitVec 12) (s : State) : Host.Outcome State Fault Refusal :=
  .next (s.setPc (addrOperand nnn))

/-- `2NNN`, R88: the return address pushed is the advanced `pc`. -/
def execCall (nnn : BitVec 12) (s : State) : Host.Outcome State Fault Refusal :=
  match s.push s.pc with
  | some t => .next (t.setPc (addrOperand nnn))
  | none => raise .stackOverflow (.call nnn) none s

/-- `00EE`, R89. -/
def execRet (s : State) : Host.Outcome State Fault Refusal :=
  match s.pop with
  | some (v, t) => .next (t.setPc v)
  | none => raise .stackUnderflow .ret none s

/-- `BNNN`, R90: the offset is always `V[0]`. -/
def execJpV0 (nnn : BitVec 12) (s : State) : Host.Outcome State Fault Refusal :=
  .next (s.setPc (addrOperand nnn + (s.getV 0).zeroExtend 16))

/-- `3XNN`, R91. -/
def execSeImm (x : Reg) (nn : Byte) (s : State) : Host.Outcome State Fault Refusal :=
  .next (s.skipIf (s.getV x == nn))

/-- `4XNN`, R92. -/
def execSneImm (x : Reg) (nn : Byte) (s : State) : Host.Outcome State Fault Refusal :=
  .next (s.skipIf (s.getV x != nn))

/-- `5XY0`, R93. -/
def execSeReg (x y : Reg) (s : State) : Host.Outcome State Fault Refusal :=
  .next (s.skipIf (s.getV x == s.getV y))

/-- `9XY0`, R94. -/
def execSneReg (x y : Reg) (s : State) : Host.Outcome State Fault Refusal :=
  .next (s.skipIf (s.getV x != s.getV y))

end Sys2Proof.Machine
end

