-- ==== Sys2Proof/Machine/Display.lean ====
section
/-! DEFINITION. Clear and draw (42_display.md R95, R96). -/

namespace Sys2Proof.Machine

/-- One set sprite bit at row `r`, column `c` (R96): "`if disp[r][c] = 1 then hit <- 1`", then the cell is XORed with 1.
The coordinates are taken mod 32 and mod 64. The pair is the display and `hit`. -/
def drawPixel (r c : Nat) (p : Display × Bool) : Display × Bool :=
  let row := Fin.ofNat Config.dispRows r
  let col := Fin.ofNat Config.dispCols c
  (p.1.setCell row col (!p.1.cell row col), p.2 || p.1.cell row col)

/-- The sprite row `bits` at display row `r`, from sprite column `col` on, `left` columns to go: bit `7 - col` is the
pixel of column `col`, the most significant bit leftmost (R96). -/
def drawRow (bits : Byte) (r cx : Nat) : Nat → Nat → Display × Bool → Display × Bool
  | _, 0, p => p
  | col, left + 1, p =>
    drawRow bits r cx (col + 1) left (if bits.getLsbD (7 - col) then drawPixel r (cx + col) p else p)

/-- The sprite rows from display row `r` down (R96). -/
def drawRows (cx : Nat) : Nat → List Byte → Display × Bool → Display × Bool
  | _, [], p => p
  | r, bits :: rest, p => drawRows cx (r + 1) rest (drawRow bits r cx 0 8 p)

/-- The sprite `rows` XORed into the display at column `cx` and row `cy`, and whether any set sprite bit met a set cell
(R96). -/
def drawSprite (cx cy : Nat) (rows : List Byte) (d : Display) : Display × Bool :=
  drawRows cx cy rows (d, false)

/-- `00E0`, R95. -/
def execCls (s : State) : Host.Outcome State Fault Refusal :=
  .next (s.setDisp Display.blank)

/-- `DXYN`, R96: the coordinates are read before VF is written; the bounds check comes before any write; VF ends as
`hit` (its reset to 0 within the step is not observable). -/
def execDrw (x y : Reg) (n : Nat) (s : State) : Host.Outcome State Fault Refusal :=
  let drawn := drawSprite (s.getV x).toNat (s.getV y).toNat (s.bytesAtI n) s.disp
  withBytesAtI (.drw x y n) n s ((s.setDisp drawn.1).setV vf (flagByte drawn.2))

end Sys2Proof.Machine
end

