-- ==== Sys2Proof/Machine/IndexMemory.lean ====
section
/-! DEFINITION. The index register and the transfers through it (44_index_memory.md R109..R115). -/

namespace Sys2Proof.Machine

/-- `ANNN`, R109. -/
def execLdI (nnn : BitVec 12) (s : State) : Host.Outcome State Fault Refusal :=
  .next (s.setI (addrOperand nnn))

/-- `FX1E`, R110: no flag, no bounds check. -/
def execAddIVx (x : Reg) (s : State) : Host.Outcome State Fault Refusal :=
  .next (s.setI (s.I + (s.getV x).zeroExtend 16))

/-- `FX29`, R111. -/
def execLdFVx (x : Reg) (s : State) : Host.Outcome State Fault Refusal :=
  withIndex (.ldFVx x) x s fun d => s.setI (BitVec.ofNat 16 (fontBase + glyphBytes * d.val))

/-- `FX33`, R112. -/
def execLdBVx (x : Reg) (s : State) : Host.Outcome State Fault Refusal :=
  withBytesAtI (.ldBVx x) 3 s (s.storeAtI (bcdDigits (s.getV x)))

/-- `FX55`, R113. -/
def execLdMemVx (x : Reg) (s : State) : Host.Outcome State Fault Refusal :=
  withBytesAtI (.ldMemVx x) (x.val + 1) s
    ((s.storeAtI (s.regsUpTo x)).setI (indexAfterTransfer x s.I))

/-- `FX65`, R114. -/
def execLdVxMem (x : Reg) (s : State) : Host.Outcome State Fault Refusal :=
  withBytesAtI (.ldVxMem x) (x.val + 1) s
    ((s.loadRegsUpTo x (s.bytesAtI (x.val + 1))).setI (indexAfterTransfer x s.I))

end Sys2Proof.Machine
end

