-- ==== Sys2Proof/Machine/TimersInput.lean ====
section
/-! DEFINITION. Timers, key skips and the key wait (43_timers_input.md R99..R101, R104..R106). The host's tick and
`set_key` are in Machine/HostOps.lean. -/

namespace Sys2Proof.Machine

/-- `FX07`, R99. -/
def execLdVxDt (x : Reg) (s : State) : Host.Outcome State Fault Refusal :=
  .next (s.setV x s.dt)

/-- `FX15`, R100. -/
def execLdDtVx (x : Reg) (s : State) : Host.Outcome State Fault Refusal :=
  .next (s.setDt (s.getV x))

/-- `FX18`, R101. -/
def execLdStVx (x : Reg) (s : State) : Host.Outcome State Fault Refusal :=
  .next (s.setSt (s.getV x))

/-- `EX9E`, R104. -/
def execSkp (x : Reg) (s : State) : Host.Outcome State Fault Refusal :=
  withIndex (.skp x) x s fun k => s.skipIf (s.keyDown k)

/-- `EXA1`, R105. -/
def execSknp (x : Reg) (s : State) : Host.Outcome State Fault Refusal :=
  withIndex (.sknp x) x s fun k => s.skipIf (!s.keyDown k)

/-- `FX0A`, R106: the wait begins; `V[x]` is written when the host's key-down transition ends it (R107). -/
def execLdVxK (x : Reg) (s : State) : Host.Outcome State Fault Refusal :=
  .next (s.setStatus (.waitingKey x))

end Sys2Proof.Machine
end

