-- ==== Sys2Proof/Machine/Engine.lean ====
section
/-! DEFINITION. What a step does in status `Running` (30_encoding.md R60): fetch, advance, decode, execute, and the two
exceptions a step can raise before it executes (60_exceptions.md R122). -/

namespace Sys2Proof.Machine

/-- Decode the fetched word and execute it on the advanced state, or raise `DecodeError` (R60.2 to R60.4, R65). -/
def runWord (w : Word) (s : State) : Host.Outcome State Fault Refusal :=
  match decodeWord w with
  | .ok i => exec i s.advancePc
  | .error _ => .next (takeException .decodeError s.pc (some w) none s)

/-- One instruction (R60), or the fault of its fetch (R49). -/
def runInstruction (s : State) : Host.Outcome State Fault Refusal :=
  match fetchWord s with
  | .ok w => runWord w s
  | .error bad => .next (takeException .outOfBounds s.pc none (some bad) s)

/-- A step (R60): an instruction in status `Running`; nothing in `WaitingKey` (43_timers_input.md R106) and in
`Halted` (60_exceptions.md R120). The outcome `step()` returns is read off the next state's status: `outcomeOf`, in
Machine/HostOps.lean (log 4). -/
def engineStep (s : State) : Host.Outcome State Fault Refusal :=
  match s.status with
  | .running => runInstruction s
  | .waitingKey _ => .next s
  | .halted _ => .next s

/-- Where `step` will fetch its next instruction once the engine runs: `pc`, or `PROGRAM_BASE` when no whole word
lies at `pc` (log 8). -/
def fetchAddress (s : State) : Nat :=
  match outOfRange s.pc.toNat 2 with
  | none => s.pc.toNat
  | some _ => programBase

/-- A table word placed where `step` fetches next, with the engine running (log 8). -/
def placeWord (s : State) (nbits w : Nat) : State :=
  ((s.setMem (s.mem.writeBytes (fetchAddress s) (tableBytes nbits w))).setPc
    (BitVec.ofNat 16 (fetchAddress s))).setStatus .running

end Sys2Proof.Machine
end

