-- ==== Sys2Proof/Machine/Step.lean ====
section
/-! DEFINITION. The step of the core (30_encoding.md R60), and a word placed where it fetches next. -/

namespace Sys2Proof.Machine

/-- `step()`. -/
def step (s : State) : Host.Outcome State Fault Refusal := engineStep s

/-- The instruction whose table word is `w` (its bits above `nbits` zero), stored where `step` fetches next. -/
def State.withFetchWord (s : State) (nbits w : Nat) : State := placeWord s nbits w

end Sys2Proof.Machine
end

