-- ==== Sys2Proof/Machine/HostOps.lean ====
section
/-! DEFINITION. The host's operations on the core (00_scope.md R5, 60_exceptions.md R129), each atomic between steps,
and any sequence of them (log 11). -/

namespace Sys2Proof.Machine

/-- What `step()` returns (R12). -/
inductive StepOutcome where
  /-- `Continue` -/
  | continues
  /-- `WaitingForKey` -/
  | waitingForKey
  /-- `Halted(kind)` -/
  | halted (kind : FaultKind)
  deriving DecidableEq, Repr

/-- The outcome `step()` returns when it leaves the state `s` (30_encoding.md R60.5, log 4). -/
def outcomeOf (s : State) : StepOutcome :=
  match s.status with
  | .running => .continues
  | .waitingKey _ => .waitingForKey
  | .halted info => .halted info.kind

/-- The numeric code of an exception (60_exceptions.md R116). -/
def FaultKind.code : FaultKind → Nat
  | .decodeError => 1
  | .stackOverflow => 2
  | .stackUnderflow => 3
  | .outOfBounds => 4

/-- One counter's decrement, "a no-op at 0" (43_timers_input.md R102). -/
def countDown (v : Byte) : Byte := if v = 0 then 0 else v - 1

/-- `tick_timers()` (R102): both counters, and nothing else. -/
def tickTimers (s : State) : State := (s.setDt (countDown s.dt)).setSt (countDown s.st)

/-- `sound_on = (st != 0)` (R103). -/
def soundOn (s : State) : Bool := s.st != 0

/-- `read_display()` (42_display.md R98): the grid, row-major. -/
def readDisplay (s : State) : Display := s.disp

/-- The end of a key wait: the key index goes to `V[x]` and the engine resumes (R107). -/
def endWait (x : Reg) (k : Key) (s : State) : State :=
  (s.setV x (BitVec.ofNat 8 k.val)).setStatus .running

/-- A key 0..15 pressed or released (R107): a key-down transition ends a wait. -/
def changeKey (k : Key) (pressed : Bool) (s : State) : State :=
  let t := s.setKeyBit k pressed
  match s.status with
  | .waitingKey x => if pressed && !s.keyDown k then endWait x k t else t
  | .running => t
  | .halted _ => t

/-- `set_key(k, pressed)` (R107): none when the call is rejected, `k > 15`. -/
def setKey (k : Nat) (pressed : Bool) (s : State) : Option State :=
  if h : k < 16 then some (changeKey ⟨k, h⟩ pressed s) else none

/-- `load(image)` (70_reset_and_hazards.md R138): none when the image does not fit. The keys are kept; so is the
model's count of draws, since the random oracle is not the core's to reset (log 1). -/
def load (image : List Byte) (s : State) : Option State :=
  if programBase + image.length > 4096 then none
  else some { State.reset with
    mem := Memory.writeBytes State.reset.mem programBase image, key := s.key, draws := s.draws }

/-- What `capture()` copies (60_exceptions.md R130): everything but the keys, which are the host's (D28), and the
model's count of draws. -/
structure Snapshot where
  /-- `mem` -/
  mem : Memory
  /-- `V` -/
  V : Vector Byte 16
  /-- `I` -/
  I : Word
  /-- `pc` -/
  pc : Word
  /-- `sp` -/
  sp : Fin (Config.stackDepth + 1)
  /-- `stack` -/
  stack : Vector Word Config.stackDepth
  /-- `dt` -/
  dt : Byte
  /-- `st` -/
  st : Byte
  /-- `disp` -/
  disp : Display
  /-- `status` -/
  status : Status
  deriving DecidableEq, Repr

/-- What `restore` is given (R131, R132, log 9): a version tag, and the captured fields unless the data is
truncated. -/
structure SnapshotImage where
  /-- the version tag -/
  version : Nat
  /-- the captured fields; none when the data is truncated -/
  content : Option Snapshot
  deriving DecidableEq, Repr

/-- `capture()` (R130). -/
def capture (s : State) : Snapshot :=
  { mem := s.mem, V := s.V, I := s.I, pc := s.pc, sp := s.sp, stack := s.stack, dt := s.dt, st := s.st,
    disp := s.disp, status := s.status }

/-- A snapshot as this version of the core persists it (R132). -/
def Snapshot.image (c : Snapshot) : SnapshotImage := { version := Config.snapshotVersion, content := some c }

/-- Every captured field replaced at once (R131); the keys and the model's count of draws stay. -/
def applySnapshot (c : Snapshot) (s : State) : State :=
  { mem := c.mem, V := c.V, I := c.I, pc := c.pc, sp := c.sp, stack := c.stack, dt := c.dt, st := c.st,
    disp := c.disp, key := s.key, status := c.status, draws := s.draws }

/-- `restore(s)` (R131): none for `InvalidSnapshot`, a wrong version tag or truncated data. -/
def restore (img : SnapshotImage) (s : State) : Option State :=
  if img.version = Config.snapshotVersion then img.content.map (fun c => applySnapshot c s) else none

/-- The operations of R129. -/
inductive HostOp where
  /-- `load(image)` -/
  | load (image : List Byte)
  /-- `step()` -/
  | step
  /-- `tick_timers()` -/
  | tickTimers
  /-- `set_key(k, pressed)` -/
  | setKey (k : Nat) (pressed : Bool)
  /-- `read_display()` -/
  | readDisplay
  /-- the sound signal -/
  | readSound
  /-- `capture()` -/
  | capture
  /-- `restore(s)` -/
  | restore (img : SnapshotImage)
  deriving DecidableEq, Repr

/-- What an operation hands back to the host (R129). -/
inductive HostResult where
  /-- nothing to report -/
  | done
  /-- `load` or `restore` succeeded -/
  | ok
  /-- `load` failed: the image does not fit; no state change -/
  | loadFailed
  /-- `set_key` rejected: `k > 15`; no state change -/
  | keyRejected
  /-- `restore` returned `InvalidSnapshot`; no state change -/
  | invalidSnapshot
  /-- what `step` returned -/
  | outcome (o : StepOutcome)
  /-- the display's cells -/
  | display (d : Display)
  /-- the sound signal -/
  | sound (on : Bool)
  /-- a snapshot -/
  | snapshot (c : Snapshot)
  /-- a step that answered no next state; no step of this core does -/
  | stopped
  deriving DecidableEq, Repr

/-- An operation that may fail: the new state and success, or the old state and the failure (no state change). -/
def settle (s : State) (success failure : HostResult) : Option State → State × HostResult
  | some t => (t, success)
  | none => (s, failure)

/-- One step as a host operation: the next state and the outcome `step()` returns (R12). -/
def hostStep (s : State) : State × HostResult :=
  match step s with
  | .next t => (t, .outcome (outcomeOf t))
  | .fault _ => (s, .stopped)
  | .refused _ => (s, .stopped)

/-- One host operation (R129): the state it leaves and what it hands back. -/
def hostOp (op : HostOp) (s : State) : State × HostResult :=
  match op with
  | .load image => settle s .ok .loadFailed (load image s)
  | .step => hostStep s
  | .tickTimers => (tickTimers s, .done)
  | .setKey k pressed => settle s .done .keyRejected (setKey k pressed s)
  | .readDisplay => (s, .display (readDisplay s))
  | .readSound => (s, .sound (soundOn s))
  | .capture => (s, .snapshot (capture s))
  | .restore img => settle s .ok .invalidSnapshot (restore img s)

/-- The state after a sequence of host operations, in the order the host chose (R5). -/
def runHost : List HostOp → State → State
  | [], s => s
  | op :: ops, s => runHost ops (hostOp op s).1

end Sys2Proof.Machine
end

