-- ==== Sys2Proof/Safety.lean ====
section
/-! DEFINITION. The terms claims are stated in: which exception the instruction at `pc` raises (the table of
60_exceptions.md R117), a safe state, the end of a run (70_reset_and_hazards.md R141), the invariant of the core, and
what an instruction may leave unchanged. -/

namespace Sys2Proof.Machine

/-! ## The exceptions of R117 -/

/-- The exception an instruction raises when it executes in `s`, with its `bad` value: the rows of R117 below fetch and
decode. "Every other instruction raises nothing once decoded." -/
def instrFault (i : Instr) (s : State) : Option (FaultKind × Option Nat) :=
  match i with
  | .call _ => if s.sp.val = 16 then some (.stackOverflow, none) else none
  | .ret => if s.sp.val = 0 then some (.stackUnderflow, none) else none
  | .drw _ _ n =>
    if 0 < n ∧ s.I.toNat + n - 1 > 4095 then some (.outOfBounds, some (max s.I.toNat 4096)) else none
  | .skp x | .sknp x | .ldFVx x =>
    if (s.getV x).toNat > 15 then some (.outOfBounds, some (s.getV x).toNat) else none
  | .ldBVx _ =>
    if s.I.toNat + 2 > 4095 then some (.outOfBounds, some (max s.I.toNat 4096)) else none
  | .ldMemVx x | .ldVxMem x =>
    if s.I.toNat + x.val > 4095 then some (.outOfBounds, some (max s.I.toNat 4096)) else none
  | .cls | .jp _ | .seImm _ _ | .sneImm _ _ | .seReg _ _ | .sneReg _ _ | .jpV0 _ => none
  | .ldImm _ _ | .addImm _ _ | .ldReg _ _ | .orReg _ _ | .andReg _ _ | .xorReg _ _ => none
  | .addReg _ _ | .subReg _ _ | .shr _ _ | .subnReg _ _ | .shl _ _ | .rnd _ _ => none
  | .ldI _ | .addIVx _ | .ldVxDt _ | .ldVxK _ | .ldDtVx _ | .ldStVx _ => none

/-- The word that `pc` addresses, first byte high (20_memory.md R37). -/
def wordAtPc (s : State) : Word := s.mem.read s.pc.toNat ++ s.mem.read (s.pc.toNat + 1)

/-- The fault the instruction at `pc` raises, in the priority order of R122: fetch, decode, execution. -/
def faultOf (s : State) : Option FaultInfo :=
  if s.pc.toNat + 1 > 4095 then
    some { kind := .outOfBounds, addr := s.pc, word := none, bad := some (max s.pc.toNat 4096) }
  else
    match decodeWord (wordAtPc s) with
    | .error _ => some { kind := .decodeError, addr := s.pc, word := some (wordAtPc s), bad := none }
    | .ok i =>
      (instrFault i s).map fun f => { kind := f.1, addr := s.pc, word := some (wordAtPc s), bad := f.2 }

/-! ## Safe states and the end of a run -/

/-- No fault has stopped the engine: "a bad end" is status `Halted` (R141). -/
def State.Safe (s : State) : Prop := ∀ info, s.status ≠ .halted info

/-- The end of a run, the idle loop (R141): `status = Running`, and the word at `pc` is `1NNN` with `NNN = pc`. -/
def State.AtIdleLoop (s : State) : Prop :=
  s.status = .running ∧ s.pc.toNat + 1 ≤ 4095 ∧
    ∃ nnn : BitVec 12, wordAtPc s = 0x1#4 ++ nnn ∧ nnn.toNat = s.pc.toNat

/-! ## The invariant -/

/-- The core's invariant: memory is in canonical form (the model's choice, log 2), and a fault record is the fault that the instruction at `pc`
raises (R118: the report names the exact state that faulted). -/
def Inv (s : State) : Prop :=
  s.mem.wf ∧ ∀ info, s.status = .halted info → faultOf s = some info

/-- The premise on host operations, the model's choice (log 9): a `restore` whose image has content, whatever its version
tag, is given what a `capture` of a state meeting the invariant has made; a truncated image is always allowed, and so is
every other operation. -/
def HostOp.Proper (op : HostOp) : Prop :=
  ∀ img c, op = .restore img → img.content = some c → ∃ s, Inv s ∧ c = Sys2Proof.Machine.capture s

/-! ## Frames -/

/-- The parts of the state, for saying what an operation leaves unchanged. -/
inductive Part where
  /-- V0..VF -/
  | regs
  /-- `I` -/
  | index
  /-- `pc` -/
  | pc
  /-- `sp` -/
  | sp
  /-- the stack entries -/
  | stack
  /-- `dt` -/
  | delay
  /-- `st` -/
  | sound
  /-- the display cells -/
  | display
  /-- the keys -/
  | keys
  /-- `status` -/
  | status
  /-- every byte of memory -/
  | memory
  /-- the model's count of random draws -/
  | draws
  deriving DecidableEq, Repr

/-- One part of the state is the same in `t` as in `s`. -/
def Keeps (s t : State) : Part → Prop
  | .regs => ∀ r : Reg, t.getV r = s.getV r
  | .index => t.I = s.I
  | .pc => t.pc = s.pc
  | .sp => t.sp = s.sp
  | .stack => ∀ k : Fin Config.stackDepth, t.stack[k] = s.stack[k]
  | .delay => t.dt = s.dt
  | .sound => t.st = s.st
  | .display => ∀ r c, t.disp.cell r c = s.disp.cell r c
  | .keys => ∀ k : Key, t.keyDown k = s.keyDown k
  | .status => t.status = s.status
  | .memory => ∀ a : Nat, t.mem.read a = s.mem.read a
  | .draws => t.draws = s.draws

/-- Every part of the state but the listed ones is the same in `t` as in `s`. -/
def UnchangedBut (changed : List Part) (s t : State) : Prop :=
  ∀ p : Part, p ∉ changed → Keeps s t p

/-- Every general register but the listed ones is the same in `t` as in `s`. -/
def RegsUnchangedBut (written : List Reg) (s t : State) : Prop :=
  ∀ r : Reg, r ∉ written → t.getV r = s.getV r

end Sys2Proof.Machine
end

