-- ==== Sys2Proof/Certificates/Slice0/Obligations.lean ====
section
/-! DEFINITION. The statements for the provers, each from a numbered rule of spec/ (its docstring names it). `exec` runs
on the state after the fetch advance, so in a statement about `exec` the instruction stands at `s.pc - 2` and
`s.pc` is "A + 2" (30_encoding.md R62). Words are written digit by digit as R63's patterns give them. -/

open Sys2Proof Sys2Proof.Machine

/-! ## Terms used by the statements -/

/-- The illegal words, by R65's list. The digits of a word as numbers: opcode nibble, low nibble, low byte, low 12
bits (30_encoding.md R57). -/
def Sys2Proof.Machine.IllegalWord (w : Word) : Prop :=
  let op := w.toNat / 4096
  let n := w.toNat % 16
  let nn := w.toNat % 256
  let nnn := w.toNat % 4096
  (op = 0x0 ∧ nnn ≠ 0x0E0 ∧ nnn ≠ 0x0EE) ∨
  (op = 0x5 ∧ n ≠ 0) ∨
  (op = 0x8 ∧ n ∈ [0x8, 0x9, 0xA, 0xB, 0xC, 0xD, 0xF]) ∨
  (op = 0x9 ∧ n ≠ 0) ∨
  (op = 0xE ∧ nn ∉ [0x9E, 0xA1]) ∨
  (op = 0xF ∧ nn ∉ [0x07, 0x0A, 0x15, 0x18, 0x1E, 0x29, 0x33, 0x55, 0x65])

/-- What `exec` leaves when the instruction, whose word is `w`, raises an exception (60_exceptions.md R118): `pc` back
at the instruction, the record in the status, everything else as before. -/
def Sys2Proof.Machine.Raised (kind : FaultKind) (w : Word) (bad : Option Nat) (s t : State) : Prop :=
  t.pc = s.pc - 2 ∧ t.status = .halted { kind := kind, addr := s.pc - 2, word := some w, bad := bad } ∧
    UnchangedBut [.pc, .status] s t

/-- A set bit of the sprite that `DXYN` draws lands on cell (r, c): bit `7 - col` of sprite row `row`, on row
`(cy + row) mod 32` and column `(cx + col) mod 64` (42_display.md R96). -/
def Sys2Proof.Machine.SpriteBit (s : State) (x y : Reg) (n : Nat) (r : Fin 32) (c : Fin 64) : Prop :=
  ∃ row < n, ∃ col < 8,
    (s.mem.read (s.I.toNat + row)).getLsbD (7 - col) = true ∧
    r.val = ((s.getV y).toNat + row) % 32 ∧ c.val = ((s.getV x).toNat + col) % 64

/-- `pc` after a step that raises nothing, by the table of 10_state.md R20; `s` is the state before the step, so that
`s.pc` is A. -/
def Sys2Proof.Machine.pcAfterStep (i : Instr) (s : State) : Word :=
  let skip := fun c : Bool => if c then s.pc + 4 else s.pc + 2
  match i with
  | .jp nnn | .call nnn => BitVec.ofNat 16 nnn.toNat
  | .jpV0 nnn => BitVec.ofNat 16 (nnn.toNat + (s.getV 0).toNat)
  | .ret => s.stack.toList.getD (s.sp.val - 1) 0
  | .seImm x nn => skip (s.getV x = nn)
  | .sneImm x nn => skip (s.getV x ≠ nn)
  | .seReg x y => skip (s.getV x = s.getV y)
  | .sneReg x y => skip (s.getV x ≠ s.getV y)
  | .skp x => skip (s.keyDown (Fin.ofNat 16 (s.getV x).toNat))
  | .sknp x => skip (!s.keyDown (Fin.ofNat 16 (s.getV x).toNat))
  | .cls | .drw _ _ _ => s.pc + 2
  | .ldImm _ _ | .addImm _ _ | .ldReg _ _ | .orReg _ _ | .andReg _ _ | .xorReg _ _ => s.pc + 2
  | .addReg _ _ | .subReg _ _ | .shr _ _ | .subnReg _ _ | .shl _ _ | .rnd _ _ => s.pc + 2
  | .ldVxDt _ | .ldVxK _ | .ldDtVx _ | .ldStVx _ => s.pc + 2
  | .ldI _ | .addIVx _ | .ldFVx _ | .ldBVx _ | .ldMemVx _ | .ldVxMem _ => s.pc + 2

/-- The registers an instruction may write, by the table of 10_state.md R18 (`FX0A` writes its register only when its
wait ends, in `set_key`). -/
def Sys2Proof.Machine.MayWrite (i : Instr) (r : Reg) : Prop :=
  match i with
  | .ldImm x _ | .addImm x _ | .ldReg x _ | .orReg x _ | .andReg x _ | .xorReg x _ | .rnd x _ | .ldVxDt x => r = x
  | .addReg x _ | .subReg x _ | .shr x _ | .subnReg x _ | .shl x _ => r = 15 ∨ r = x
  | .drw _ _ _ => r = 15
  | .ldVxMem x => r ≤ x
  | .cls | .ret | .jp _ | .call _ | .jpV0 _ => False
  | .seImm _ _ | .sneImm _ _ | .seReg _ _ | .sneReg _ _ | .skp _ | .sknp _ => False
  | .ldVxK _ | .ldDtVx _ | .ldStVx _ => False
  | .ldI _ | .addIVx _ | .ldFVx _ | .ldBVx _ | .ldMemVx _ => False

/-- Two states that differ at most in dead stack entries, those at index `sp` and above (10_state.md R24). -/
def Sys2Proof.Machine.SameButDeadEntries (s u : State) : Prop :=
  u = { s with stack := u.stack } ∧ ∀ k : Fin 16, k.val < s.sp.val → u.stack[k] = s.stack[k]

/-! ## Reset -/

/-- Every piece of state after reset, by the table of R34, the font bytes by the table of R45; a load keeps the keys. -/
def Obligations.ResetLeavesTheStatedValues : Prop :=
  (∀ r : Reg, State.reset.getV r = 0) ∧ State.reset.I = 0 ∧ State.reset.pc = 0x200 ∧
  State.reset.sp.val = 0 ∧ (∀ k : Fin 16, State.reset.stack[k] = 0) ∧
  State.reset.dt = 0 ∧ State.reset.st = 0 ∧ (∀ r c, State.reset.disp.cell r c = false) ∧
  (∀ k : Key, State.reset.keyDown k = false) ∧ State.reset.status = .running ∧
  (∀ a, 80 ≤ a → a ≤ 4095 → State.reset.mem.read a = 0) ∧
  (List.range 80).map State.reset.mem.read =
    [0xF0, 0x90, 0x90, 0x90, 0xF0, 0x20, 0x60, 0x20, 0x20, 0x70, 0xF0, 0x10, 0xF0, 0x80, 0xF0,
     0xF0, 0x10, 0xF0, 0x10, 0xF0, 0x90, 0x90, 0xF0, 0x10, 0x10, 0xF0, 0x80, 0xF0, 0x10, 0xF0,
     0xF0, 0x80, 0xF0, 0x90, 0xF0, 0xF0, 0x10, 0x20, 0x40, 0x40, 0xF0, 0x90, 0xF0, 0x90, 0xF0] ++
    [0xF0, 0x90, 0xF0, 0x10, 0xF0, 0xF0, 0x90, 0xF0, 0x90, 0x90, 0xE0, 0x90, 0xE0, 0x90, 0xE0,
     0xF0, 0x80, 0x80, 0x80, 0xF0, 0xE0, 0x90, 0x90, 0x90, 0xE0, 0xF0, 0x80, 0xF0, 0x80, 0xF0,
     0xF0, 0x80, 0xF0, 0x80, 0x80] ∧
  ∀ (image : List Byte) (s t : State), load image s = some t → ∀ k : Key, t.keyDown k = s.keyDown k

/-! ## Encoding -/

/-- Decode of the encoding of a well-formed instruction is that instruction, for every operand value (R59, R63). -/
def Obligations.DecodingAnEncodedInstructionGivesItBack : Prop :=
  ∀ i : Instr, i.WellFormed → decodeWord (encode i) = .ok i

/-- A decoded word is the encoding of the instruction it decodes to, which is well formed: no bit of a legal word is
dropped, so two different legal words differ in an operand or in the instruction (R72). -/
def Obligations.ADecodedWordIsTheEncodingOfItsInstruction : Prop :=
  ∀ (w : Word) (i : Instr), decodeWord w = .ok i → i.WellFormed ∧ encode i = w

/-- R65: the words of its list, and no other, decode to no instruction, and a step that fetches one raises
`DecodeError` with the word and its address, halting the engine. -/
def Obligations.IllegalWordsRaiseDecodeError : Prop :=
  (∀ w : Word, (∃ i, decodeWord w = .ok i) ↔ ¬ IllegalWord w) ∧
  ∀ s : State, s.status = .running → s.pc.toNat + 1 ≤ 4095 → IllegalWord (wordAtPc s) →
    ∃ t, step s = .next t ∧
      t.status = .halted { kind := .decodeError, addr := s.pc, word := some (wordAtPc s), bad := none } ∧
      UnchangedBut [.status] s t

/-- Words written out from the patterns of R63 decode to the instructions they stand for; one sanity check per
format. -/
def Obligations.SampleWordsDecodeAsTheirPatternsSay : Prop :=
  decodeWord 0x00EE#16 = .ok .ret ∧ decodeWord 0x1234#16 = .ok (.jp 0x234#12) ∧
  decodeWord 0x6A42#16 = .ok (.ldImm 10 0x42#8) ∧ decodeWord 0x8F14#16 = .ok (.addReg 15 1) ∧
  decodeWord 0x8346#16 = .ok (.shr 3 4) ∧ decodeWord 0xD01F#16 = .ok (.drw 0 1 15) ∧
  decodeWord 0xE59E#16 = .ok (.skp 5) ∧ decodeWord 0xF265#16 = .ok (.ldVxMem 2)

/-! ## The step -/

/-- When the word at `pc` decodes to an instruction, a step in status `Running` is `exec` of that instruction on the
state whose `pc` has moved past the word (R60, R62). -/
def Obligations.StepExecutesTheDecodedInstruction : Prop :=
  ∀ (s : State) (i : Instr), s.status = .running → s.pc.toNat + 1 ≤ 4095 → decodeWord (wordAtPc s) = .ok i →
    step s = exec i { s with pc := s.pc + 2 }

/-- R49: a fetch reads `mem[pc]` and `mem[pc+1]`; when the second byte lies above 4095 the step raises `OutOfBounds` with
`bad` the first out-of-range address, `addr = pc` and no word. -/
def Obligations.FetchPastTheEndOfMemoryFaults : Prop :=
  ∀ s : State,
    (s.pc.toNat + 1 ≤ 4095 →
      fetchWord s = .ok (s.mem.read s.pc.toNat ++ s.mem.read (s.pc.toNat + 1))) ∧
    (s.status = .running → s.pc.toNat + 1 > 4095 → ∃ t, step s = .next t ∧
      t.status = .halted
        { kind := .outOfBounds, addr := s.pc, word := none,
          bad := some (if s.pc.toNat > 4095 then s.pc.toNat else s.pc.toNat + 1) } ∧
      UnchangedBut [.status] s t)

/-- Every call of `step()` returns exactly one of `Continue`, `WaitingForKey` or `Halted(error)` (R12). That the outcome
is read off the status the step leaves is the model's, a deduction from R60.5, R106 and R120 (log 4). -/
def Obligations.EveryStepReturnsOneOfThreeOutcomes : Prop :=
  ∀ s : State, ∃ t, step s = .next t ∧ hostOp .step s = (t, .outcome (outcomeOf t)) ∧
    (outcomeOf t = .continues ↔ t.status = .running) ∧
    (outcomeOf t = .waitingForKey ↔ ∃ x, t.status = .waitingKey x) ∧
    (∀ kind, outcomeOf t = .halted kind ↔ ∃ info, t.status = .halted info ∧ info.kind = kind)

/-- R20: how each instruction leaves `pc`. -/
def Obligations.PcAfterEachInstruction : Prop :=
  ∀ s : State, s.status = .running → ∃ t, step s = .next t ∧
    (∀ info, faultOf s = some info → t.pc = s.pc) ∧
    (∀ i, faultOf s = none → decodeWord (wordAtPc s) = .ok i →
      t.pc = pcAfterStep i s ∧ ∀ x, i = .ldVxK x → t.status = .waitingKey x)

/-! ## Register loads and arithmetic -/

/-- R73. -/
def Obligations.LoadImmediateWritesItsRegister : Prop :=
  ∀ (x : Reg) (nn : Byte) (s : State),
    decodeWord (0x6#4 ++ regBits x ++ nn) = .ok (.ldImm x nn) ∧
    ∃ t, exec (.ldImm x nn) s = .next t ∧ t.getV x = nn ∧
      RegsUnchangedBut [x] s t ∧ UnchangedBut [.regs] s t

/-- R74: no flag is written. -/
def Obligations.AddImmediateWrapsWithoutAFlag : Prop :=
  ∀ (x : Reg) (nn : Byte) (s : State),
    decodeWord (0x7#4 ++ regBits x ++ nn) = .ok (.addImm x nn) ∧
    ∃ t, exec (.addImm x nn) s = .next t ∧
      (t.getV x).toNat = ((s.getV x).toNat + nn.toNat) % 256 ∧
      RegsUnchangedBut [x] s t ∧ UnchangedBut [.regs] s t

/-- R75. -/
def Obligations.CopyWritesTheSourceValue : Prop :=
  ∀ (x y : Reg) (s : State),
    decodeWord (0x8#4 ++ regBits x ++ regBits y ++ 0x0#4) = .ok (.ldReg x y) ∧
    ∃ t, exec (.ldReg x y) s = .next t ∧ t.getV x = s.getV y ∧
      RegsUnchangedBut [x] s t ∧ UnchangedBut [.regs] s t

/-- R76, R77, R78: bit by bit, and no flag. -/
def Obligations.BitwiseOperationsActOnEachBit : Prop :=
  ∀ (x y : Reg) (s : State),
    (decodeWord (0x8#4 ++ regBits x ++ regBits y ++ 0x1#4) = .ok (.orReg x y) ∧
      ∃ t, exec (.orReg x y) s = .next t ∧
        (∀ k < 8, (t.getV x).getLsbD k = ((s.getV x).getLsbD k || (s.getV y).getLsbD k)) ∧
        RegsUnchangedBut [x] s t ∧ UnchangedBut [.regs] s t) ∧
    (decodeWord (0x8#4 ++ regBits x ++ regBits y ++ 0x2#4) = .ok (.andReg x y) ∧
      ∃ t, exec (.andReg x y) s = .next t ∧
        (∀ k < 8, (t.getV x).getLsbD k = ((s.getV x).getLsbD k && (s.getV y).getLsbD k)) ∧
        RegsUnchangedBut [x] s t ∧ UnchangedBut [.regs] s t) ∧
    (decodeWord (0x8#4 ++ regBits x ++ regBits y ++ 0x3#4) = .ok (.xorReg x y) ∧
      ∃ t, exec (.xorReg x y) s = .next t ∧
        (∀ k < 8, (t.getV x).getLsbD k = ((s.getV x).getLsbD k ^^ (s.getV y).getLsbD k)) ∧
        RegsUnchangedBut [x] s t ∧ UnchangedBut [.regs] s t)

/-- R79: the sum mod 256, and VF the carry; with `x = F` the sum is what VF ends with. -/
def Obligations.AddSetsVfToTheCarry : Prop :=
  ∀ (x y : Reg) (s : State),
    decodeWord (0x8#4 ++ regBits x ++ regBits y ++ 0x4#4) = .ok (.addReg x y) ∧
    ∃ t, exec (.addReg x y) s = .next t ∧
      (t.getV x).toNat = ((s.getV x).toNat + (s.getV y).toNat) % 256 ∧
      (x ≠ 15 → (t.getV 15).toNat = if (s.getV x).toNat + (s.getV y).toNat > 255 then 1 else 0) ∧
      RegsUnchangedBut [x, 15] s t ∧ UnchangedBut [.regs] s t

/-- R80: `V[x] - V[y]` mod 256, and VF 1 exactly when nothing is borrowed; with `x = F` the difference is what VF ends
with. -/
def Obligations.SubtractSetsVfToNoBorrow : Prop :=
  ∀ (x y : Reg) (s : State),
    decodeWord (0x8#4 ++ regBits x ++ regBits y ++ 0x5#4) = .ok (.subReg x y) ∧
    ∃ t, exec (.subReg x y) s = .next t ∧
      (t.getV x).toNat = ((s.getV x).toNat + 256 - (s.getV y).toNat) % 256 ∧
      (x ≠ 15 → (t.getV 15).toNat = if (s.getV x).toNat ≥ (s.getV y).toNat then 1 else 0) ∧
      RegsUnchangedBut [x, 15] s t ∧ UnchangedBut [.regs] s t

/-- R82: the operands of R80 exchanged. -/
def Obligations.ReverseSubtractSetsVfToNoBorrow : Prop :=
  ∀ (x y : Reg) (s : State),
    decodeWord (0x8#4 ++ regBits x ++ regBits y ++ 0x7#4) = .ok (.subnReg x y) ∧
    ∃ t, exec (.subnReg x y) s = .next t ∧
      (t.getV x).toNat = ((s.getV y).toNat + 256 - (s.getV x).toNat) % 256 ∧
      (x ≠ 15 → (t.getV 15).toNat = if (s.getV y).toNat ≥ (s.getV x).toNat then 1 else 0) ∧
      RegsUnchangedBut [x, 15] s t ∧ UnchangedBut [.regs] s t

/-- R81: `V[x]` halved in place, VF its old bit 0, whatever `y` is. -/
def Obligations.ShiftRightMovesBit0ToVf : Prop :=
  ∀ (x y : Reg) (s : State),
    decodeWord (0x8#4 ++ regBits x ++ regBits y ++ 0x6#4) = .ok (.shr x y) ∧
    ∃ t, exec (.shr x y) s = .next t ∧
      (t.getV x).toNat = (s.getV x).toNat / 2 ∧
      (x ≠ 15 → (t.getV 15).toNat = (s.getV x).toNat % 2) ∧
      RegsUnchangedBut [x, 15] s t ∧ UnchangedBut [.regs] s t

/-- R83: `V[x]` doubled in place mod 256, VF its old bit 7, whatever `y` is. -/
def Obligations.ShiftLeftMovesBit7ToVf : Prop :=
  ∀ (x y : Reg) (s : State),
    decodeWord (0x8#4 ++ regBits x ++ regBits y ++ 0xE#4) = .ok (.shl x y) ∧
    ∃ t, exec (.shl x y) s = .next t ∧
      (t.getV x).toNat = 2 * (s.getV x).toNat % 256 ∧
      (x ≠ 15 → (t.getV 15).toNat = (s.getV x).toNat / 128) ∧
      RegsUnchangedBut [x, 15] s t ∧ UnchangedBut [.regs] s t

/-- The random byte ANDed with the immediate (R86), exactly one draw. The byte is the free value of log 1, of which
nothing is known: the statement holds whatever it is. -/
def Obligations.RandomMasksOneFreshDraw : Prop :=
  ∀ (x : Reg) (nn : Byte) (s : State),
    decodeWord (0xC#4 ++ regBits x ++ nn) = .ok (.rnd x nn) ∧
    ∃ t, exec (.rnd x nn) s = .next t ∧
      (∀ k < 8, (t.getV x).getLsbD k = ((Config.randomByte s.draws).getLsbD k && nn.getLsbD k)) ∧
      t.draws = s.draws + 1 ∧
      RegsUnchangedBut [x] s t ∧ UnchangedBut [.regs, .draws] s t

/-! ## Control transfer -/

/-- R87. -/
def Obligations.JumpGoesToItsAddress : Prop :=
  ∀ (nnn : BitVec 12) (s : State),
    decodeWord (0x1#4 ++ nnn) = .ok (.jp nnn) ∧
    ∃ t, exec (.jp nnn) s = .next t ∧ t.pc.toNat = nnn.toNat ∧ UnchangedBut [.pc] s t

/-- R88: a call pushes the advanced `pc`; with a full stack it raises `StackOverflow`. -/
def Obligations.CallPushesOrOverflows : Prop :=
  ∀ (nnn : BitVec 12) (s : State),
    decodeWord (0x2#4 ++ nnn) = .ok (.call nnn) ∧
    (s.sp.val < 16 → ∃ t, exec (.call nnn) s = .next t ∧ t.pc.toNat = nnn.toNat ∧ t.sp.val = s.sp.val + 1 ∧
      (∀ k : Fin 16, t.stack[k] = if k.val = s.sp.val then s.pc else s.stack[k]) ∧
      UnchangedBut [.pc, .sp, .stack] s t) ∧
    (s.sp.val = 16 → ∃ t, exec (.call nnn) s = .next t ∧ Raised .stackOverflow (0x2#4 ++ nnn) none s t)

/-- R89: a return pops into `pc`, the popped entry kept; with an empty stack it raises `StackUnderflow`. -/
def Obligations.ReturnPopsOrUnderflows : Prop :=
  decodeWord 0x00EE#16 = .ok .ret ∧
  ∀ s : State,
    (∀ k : Fin 16, s.sp.val = k.val + 1 → ∃ t, exec .ret s = .next t ∧ t.pc = s.stack[k] ∧ t.sp.val = k.val ∧
      UnchangedBut [.pc, .sp] s t) ∧
    (s.sp.val = 0 → ∃ t, exec .ret s = .next t ∧ Raised .stackUnderflow 0x00EE#16 none s t)

/-- "A call followed by a return restores `pc`" to the instruction after the call word (R89), from any subroutine that
leaves the stack as it found it. -/
def Obligations.CallThenReturnRestoresPc : Prop :=
  ∀ (nnn : BitVec 12) (s t u : State), s.sp.val < 16 → exec (.call nnn) s = .next t →
    u.sp = t.sp → (∀ k : Fin 16, u.stack[k] = t.stack[k]) →
    ∃ v, exec .ret u = .next v ∧ v.pc = s.pc ∧ v.sp = s.sp ∧
      (∀ k : Fin 16, k.val < s.sp.val → v.stack[k] = s.stack[k])

/-- R90: the offset is `V[0]`, the sum taken mod 2^16. -/
def Obligations.JumpWithOffsetAddsV0 : Prop :=
  ∀ (nnn : BitVec 12) (s : State),
    decodeWord (0xB#4 ++ nnn) = .ok (.jpV0 nnn) ∧
    ∃ t, exec (.jpV0 nnn) s = .next t ∧
      t.pc.toNat = (nnn.toNat + (s.getV 0).toNat) % 65536 ∧ UnchangedBut [.pc] s t

/-- R91, R92. -/
def Obligations.ImmediateSkipsCompareWithTheRegister : Prop :=
  ∀ (x : Reg) (nn : Byte) (s : State),
    (decodeWord (0x3#4 ++ regBits x ++ nn) = .ok (.seImm x nn) ∧
      ∃ t, exec (.seImm x nn) s = .next t ∧
        t.pc = (if s.getV x = nn then s.pc + 2 else s.pc) ∧ UnchangedBut [.pc] s t) ∧
    (decodeWord (0x4#4 ++ regBits x ++ nn) = .ok (.sneImm x nn) ∧
      ∃ t, exec (.sneImm x nn) s = .next t ∧
        t.pc = (if s.getV x ≠ nn then s.pc + 2 else s.pc) ∧ UnchangedBut [.pc] s t)

/-- R93, R94: also that a nonzero low nibble is illegal, and `x = y` always and never skips. -/
def Obligations.RegisterSkipsCompareTwoRegisters : Prop :=
  ∀ (x y : Reg) (s : State),
    (decodeWord (0x5#4 ++ regBits x ++ regBits y ++ 0x0#4) = .ok (.seReg x y) ∧
      ∃ t, exec (.seReg x y) s = .next t ∧
        t.pc = (if s.getV x = s.getV y then s.pc + 2 else s.pc) ∧ UnchangedBut [.pc] s t) ∧
    (decodeWord (0x9#4 ++ regBits x ++ regBits y ++ 0x0#4) = .ok (.sneReg x y) ∧
      ∃ t, exec (.sneReg x y) s = .next t ∧
        t.pc = (if s.getV x ≠ s.getV y then s.pc + 2 else s.pc) ∧ UnchangedBut [.pc] s t) ∧
    (∀ n : BitVec 4, n ≠ 0 → ∀ i,
      decodeWord (0x5#4 ++ regBits x ++ regBits y ++ n) ≠ .ok i ∧
      decodeWord (0x9#4 ++ regBits x ++ regBits y ++ n) ≠ .ok i)

/-! ## Display -/

/-- R95. -/
def Obligations.ClearZeroesEveryCell : Prop :=
  decodeWord 0x00E0#16 = .ok .cls ∧
  ∀ s : State, ∃ t, exec .cls s = .next t ∧ (∀ r c, t.disp.cell r c = false) ∧ UnchangedBut [.display] s t

/-- R96: each cell is XORed with the sprite bit that lands on it, wrapping on both axes; VF is 1 exactly when a set
sprite bit landed on a set cell; a sprite that runs past address 4095 raises `OutOfBounds`. -/
def Obligations.DrawXorsTheSpriteIntoTheDisplay : Prop :=
  ∀ (x y : Reg) (n : Nat) (s : State), n ≤ 15 →
    decodeWord (0xD#4 ++ regBits x ++ regBits y ++ BitVec.ofNat 4 n) = .ok (.drw x y n) ∧
    (n = 0 ∨ s.I.toNat + n - 1 ≤ 4095 → ∃ t, exec (.drw x y n) s = .next t ∧
      (∀ r c, t.disp.cell r c = true ↔ Xor (s.disp.cell r c = true) (SpriteBit s x y n r c)) ∧
      (t.getV 15 = 0 ∨ t.getV 15 = 1) ∧
      (t.getV 15 = 1 ↔ ∃ r c, s.disp.cell r c = true ∧ SpriteBit s x y n r c) ∧
      RegsUnchangedBut [15] s t ∧ UnchangedBut [.regs, .display] s t) ∧
    (0 < n ∧ s.I.toNat + n - 1 > 4095 → ∃ t, exec (.drw x y n) s = .next t ∧
      Raised .outOfBounds (0xD#4 ++ regBits x ++ regBits y ++ BitVec.ofNat 4 n) (some (max s.I.toNat 4096)) s t)

/-- Drawing the same sprite twice at the same coordinates restores the display (R97, its first law), and the second
draw's VF is 1 exactly when a set sprite bit lands on a cell that was 0 before the first draw, as R96 gives it (R97's
own sentence about the second draw's VF says less for cells that were set before: log 14). `u` is any state with the
first draw's display in which the sprite and the coordinates are the same again (for `x` or `y` = F the program must
have put VF back). -/
def Obligations.DrawingTwiceRestoresTheDisplay : Prop :=
  ∀ (x y : Reg) (n : Nat) (s t u : State), n ≤ 15 → (n = 0 ∨ s.I.toNat + n - 1 ≤ 4095) →
    exec (.drw x y n) s = .next t →
    u.disp = t.disp → u.I = s.I → (∀ a, u.mem.read a = s.mem.read a) →
    u.getV x = s.getV x → u.getV y = s.getV y →
    ∃ v, exec (.drw x y n) u = .next v ∧ v.disp = s.disp ∧
      (v.getV 15 = 1 ↔ ∃ r c, SpriteBit s x y n r c ∧ s.disp.cell r c = false)

/-! ## Timers and keys -/

/-- R99, R100, R101. -/
def Obligations.TimerInstructionsMoveTheTimers : Prop :=
  ∀ (x : Reg) (s : State),
    (decodeWord (0xF#4 ++ regBits x ++ 0x07#8) = .ok (.ldVxDt x) ∧
      ∃ t, exec (.ldVxDt x) s = .next t ∧ t.getV x = s.dt ∧
        RegsUnchangedBut [x] s t ∧ UnchangedBut [.regs] s t) ∧
    (decodeWord (0xF#4 ++ regBits x ++ 0x15#8) = .ok (.ldDtVx x) ∧
      ∃ t, exec (.ldDtVx x) s = .next t ∧ t.dt = s.getV x ∧ UnchangedBut [.delay] s t) ∧
    (decodeWord (0xF#4 ++ regBits x ++ 0x18#8) = .ok (.ldStVx x) ∧
      ∃ t, exec (.ldStVx x) s = .next t ∧ t.st = s.getV x ∧ UnchangedBut [.sound] s t)

/-- R102, R103: a tick decrements each nonzero counter and changes nothing else, in every status; the sound signal is
on exactly when `st` is nonzero. -/
def Obligations.TickDecrementsTheCountersOnly : Prop :=
  ∀ s : State,
    (tickTimers s).dt.toNat = s.dt.toNat - 1 ∧ (tickTimers s).st.toNat = s.st.toNat - 1 ∧
    UnchangedBut [.delay, .sound] s (tickTimers s) ∧ (soundOn s = true ↔ s.st.toNat ≠ 0)

/-- R104, R105: the skip reads the key that `V[x]` names; above 15 it raises `OutOfBounds` with that value. -/
def Obligations.KeySkipsReadTheNamedKey : Prop :=
  ∀ (x : Reg) (s : State),
    decodeWord (0xE#4 ++ regBits x ++ 0x9E#8) = .ok (.skp x) ∧
    decodeWord (0xE#4 ++ regBits x ++ 0xA1#8) = .ok (.sknp x) ∧
    (∀ k : Key, (s.getV x).toNat = k.val →
      (∃ t, exec (.skp x) s = .next t ∧
        t.pc = (if s.keyDown k = true then s.pc + 2 else s.pc) ∧ UnchangedBut [.pc] s t) ∧
      (∃ t, exec (.sknp x) s = .next t ∧
        t.pc = (if s.keyDown k = false then s.pc + 2 else s.pc) ∧ UnchangedBut [.pc] s t)) ∧
    ((s.getV x).toNat > 15 →
      (∃ t, exec (.skp x) s = .next t ∧
        Raised .outOfBounds (0xE#4 ++ regBits x ++ 0x9E#8) (some (s.getV x).toNat) s t) ∧
      (∃ t, exec (.sknp x) s = .next t ∧
        Raised .outOfBounds (0xE#4 ++ regBits x ++ 0xA1#8) (some (s.getV x).toNat) s t))

/-- R106: the key wait begins whatever the keys are and writes no register; while it holds, a step returns
`WaitingForKey` and changes nothing, ticks go on, and a key-up does not end it. -/
def Obligations.KeyWaitSuspendsTheEngine : Prop :=
  ∀ (x : Reg) (s : State),
    decodeWord (0xF#4 ++ regBits x ++ 0x0A#8) = .ok (.ldVxK x) ∧
    (∃ t, exec (.ldVxK x) s = .next t ∧ t.status = .waitingKey x ∧ outcomeOf t = .waitingForKey ∧
      UnchangedBut [.status] s t) ∧
    (s.status = .waitingKey x →
      step s = .next s ∧ outcomeOf s = .waitingForKey ∧
      (tickTimers s).dt.toNat = s.dt.toNat - 1 ∧ (tickTimers s).status = .waitingKey x ∧
      ∀ k < 16, ∃ t, setKey k false s = some t ∧ t.status = .waitingKey x ∧ UnchangedBut [.keys] s t)

/-- R107: `set_key` writes the key; a key-down transition during a wait stores the key index and resumes the engine;
nothing else changes; `k > 15` is rejected without change. -/
def Obligations.KeyDownTransitionEndsTheWait : Prop :=
  ∀ (k : Nat) (pressed : Bool) (s : State),
    (k > 15 → hostOp (.setKey k pressed) s = (s, .keyRejected)) ∧
    ∀ q : Key, k = q.val → ∃ t, hostOp (.setKey k pressed) s = (t, .done) ∧ t.keyDown q = pressed ∧
      (∀ p : Key, p ≠ q → t.keyDown p = s.keyDown p) ∧
      (∀ x, s.status = .waitingKey x → pressed = true → s.keyDown q = false →
        (t.getV x).toNat = k ∧ t.status = .running ∧
        RegsUnchangedBut [x] s t ∧ UnchangedBut [.keys, .regs, .status] s t) ∧
      ((∀ x, s.status ≠ .waitingKey x) ∨ pressed = false ∨ s.keyDown q = true → UnchangedBut [.keys] s t)

/-! ## Index register and memory -/

/-- R109, R110: the index register loaded, and added to mod 2^16 with no flag and no bounds check. -/
def Obligations.IndexInstructionsSetAndAdd : Prop :=
  (∀ (nnn : BitVec 12) (s : State),
    decodeWord (0xA#4 ++ nnn) = .ok (.ldI nnn) ∧
    ∃ t, exec (.ldI nnn) s = .next t ∧ t.I.toNat = nnn.toNat ∧ UnchangedBut [.index] s t) ∧
  ∀ (x : Reg) (s : State),
    decodeWord (0xF#4 ++ regBits x ++ 0x1E#8) = .ok (.addIVx x) ∧
    ∃ t, exec (.addIVx x) s = .next t ∧
      t.I.toNat = (s.I.toNat + (s.getV x).toNat) % 65536 ∧ UnchangedBut [.index] s t

/-- R111: `I` points at the glyph of the digit in `V[x]`, or `OutOfBounds` is raised with that value. -/
def Obligations.FontInstructionPointsAtTheGlyph : Prop :=
  ∀ (x : Reg) (s : State),
    decodeWord (0xF#4 ++ regBits x ++ 0x29#8) = .ok (.ldFVx x) ∧
    ((s.getV x).toNat ≤ 15 → ∃ t, exec (.ldFVx x) s = .next t ∧
      t.I.toNat = 0x000 + 5 * (s.getV x).toNat ∧ UnchangedBut [.index] s t) ∧
    ((s.getV x).toNat > 15 → ∃ t, exec (.ldFVx x) s = .next t ∧
      Raised .outOfBounds (0xF#4 ++ regBits x ++ 0x29#8) (some (s.getV x).toNat) s t)

/-- R112: the three digits stored at `I`, `I + 1`, `I + 2`, every other byte unchanged; past 4095 `OutOfBounds` and no
write. -/
def Obligations.BcdStoresThreeDigitsAtI : Prop :=
  ∀ (x : Reg) (s : State),
    decodeWord (0xF#4 ++ regBits x ++ 0x33#8) = .ok (.ldBVx x) ∧
    (s.I.toNat + 2 ≤ 4095 → ∃ t, exec (.ldBVx x) s = .next t ∧
      (t.mem.read s.I.toNat).toNat = (s.getV x).toNat / 100 ∧
      (t.mem.read (s.I.toNat + 1)).toNat = (s.getV x).toNat / 10 % 10 ∧
      (t.mem.read (s.I.toNat + 2)).toNat = (s.getV x).toNat % 10 ∧
      (∀ a, a < s.I.toNat ∨ s.I.toNat + 2 < a → t.mem.read a = s.mem.read a) ∧
      UnchangedBut [.memory] s t) ∧
    (s.I.toNat + 2 > 4095 → ∃ t, exec (.ldBVx x) s = .next t ∧
      Raised .outOfBounds (0xF#4 ++ regBits x ++ 0x33#8) (some (max s.I.toNat 4096)) s t)

/-- R113, R115: `V[0..x]` stored at `I ..`, every other byte unchanged; `I` after it as `BULK_ADVANCES_I` says, for
either value of that parameter; past 4095 `OutOfBounds` and no write. -/
def Obligations.BulkStoreWritesV0ToVxAtI : Prop :=
  ∀ (x : Reg) (s : State),
    decodeWord (0xF#4 ++ regBits x ++ 0x55#8) = .ok (.ldMemVx x) ∧
    (s.I.toNat + x.val ≤ 4095 → ∃ t, exec (.ldMemVx x) s = .next t ∧
      (∀ k : Reg, k ≤ x → t.mem.read (s.I.toNat + k.val) = s.getV k) ∧
      (∀ a, a < s.I.toNat ∨ s.I.toNat + x.val < a → t.mem.read a = s.mem.read a) ∧
      t.I.toNat = (if Config.bulkAdvancesI = true then (s.I.toNat + x.val + 1) % 65536 else s.I.toNat) ∧
      UnchangedBut [.memory, .index] s t) ∧
    (s.I.toNat + x.val > 4095 → ∃ t, exec (.ldMemVx x) s = .next t ∧
      Raised .outOfBounds (0xF#4 ++ regBits x ++ 0x55#8) (some (max s.I.toNat 4096)) s t)

/-- R114, R115: `V[0..x]` loaded from `I ..`, the registers above `x` unchanged; `I` as in the bulk store; past 4095
`OutOfBounds` and no write. -/
def Obligations.BulkLoadReadsV0ToVxFromI : Prop :=
  ∀ (x : Reg) (s : State),
    decodeWord (0xF#4 ++ regBits x ++ 0x65#8) = .ok (.ldVxMem x) ∧
    (s.I.toNat + x.val ≤ 4095 → ∃ t, exec (.ldVxMem x) s = .next t ∧
      (∀ k : Reg, t.getV k = if k ≤ x then s.mem.read (s.I.toNat + k.val) else s.getV k) ∧
      t.I.toNat = (if Config.bulkAdvancesI = true then (s.I.toNat + x.val + 1) % 65536 else s.I.toNat) ∧
      UnchangedBut [.regs, .index] s t) ∧
    (s.I.toNat + x.val > 4095 → ∃ t, exec (.ldVxMem x) s = .next t ∧
      Raised .outOfBounds (0xF#4 ++ regBits x ++ 0x65#8) (some (max s.I.toNat 4096)) s t)

/-- R53: a word that `FX55` stores is what the next fetch at that address reads, the byte stored first as its high byte
(R37): with `x ≥ 1` the word at `I` is `V[0] : V[1]`. -/
def Obligations.AStoredWordIsFetchedNext : Prop :=
  ∀ (x : Reg) (s t : State), 1 ≤ x.val → s.I.toNat + x.val ≤ 4095 → exec (.ldMemVx x) s = .next t →
    wordAtPc { t with pc := s.I } = s.getV 0 ++ s.getV 1 ∧
    ∀ i, s.status = .running → decodeWord (s.getV 0 ++ s.getV 1) = .ok i →
      step { t with pc := s.I } = exec i { t with pc := s.I + 2 }

/-! ## Exceptions -/

/-- R117: which step can raise which exception, with the record of R116 and in the priority order of R122. -/
def Obligations.AStepRaisesExactlyTheListedExceptions : Prop :=
  ∀ s : State, s.status = .running →
    ∃ t, step s = .next t ∧ ∀ info, t.status = .halted info ↔ faultOf s = some info

/-- R118: a faulting step leaves `pc` at the instruction it fetched, changes nothing but the status, which records the
fault of R117, and returns `Halted` with its kind. -/
def Obligations.AFaultingStepChangesOnlyTheStatus : Prop :=
  ∀ (s t : State) (info : FaultInfo), s.status = .running → step s = .next t → t.status = .halted info →
    info.addr = s.pc ∧ faultOf s = some info ∧ outcomeOf t = .halted info.kind ∧ UnchangedBut [.status] s t

/-- R120: in `Halted`, a step fetches nothing, changes nothing and returns `Halted(info.kind)` again; `tick_timers` and
`set_key` still act. -/
def Obligations.HaltedIsSticky : Prop :=
  ∀ (s : State) (info : FaultInfo), s.status = .halted info →
    step s = .next s ∧ outcomeOf s = .halted info.kind ∧
    (tickTimers s).dt.toNat = s.dt.toNat - 1 ∧ (tickTimers s).st.toNat = s.st.toNat - 1 ∧
    ∀ (k : Key) (pressed : Bool), ∃ t, setKey k.val pressed s = some t ∧ t.keyDown k = pressed ∧
      UnchangedBut [.keys] s t

/-! ## What only some instructions change -/

/-- The instructions that write V registers, and which ones (R18's table). -/
def Obligations.OnlyTheListedRegistersAreWritten : Prop :=
  ∀ (i : Instr) (s t : State), exec i s = .next t → ∀ r : Reg, t.getV r ≠ s.getV r → MayWrite i r

/-- Only `FX33` and `FX55` write memory, and only the bytes R36 gives them. -/
def Obligations.OnlyTheTwoStoresChangeMemory : Prop :=
  ∀ (i : Instr) (s t : State), exec i s = .next t → ∀ a, t.mem.read a ≠ s.mem.read a →
    (∃ x, i = .ldBVx x ∧ s.I.toNat ≤ a ∧ a ≤ s.I.toNat + 2) ∨
    (∃ x, i = .ldMemVx x ∧ s.I.toNat ≤ a ∧ a ≤ s.I.toNat + x.val)

/-- Only call and return touch the stack (R23), only clear and draw write the display (R31), only `FX15` and `FX18` write
a timer (R26), only the listed instructions write `I` (R22), and no instruction writes a key (R32). -/
def Obligations.EachUnitIsChangedOnlyByItsInstructions : Prop :=
  ∀ (i : Instr) (s t : State), exec i s = .next t →
    (t.sp ≠ s.sp ∨ t.stack ≠ s.stack → i = .ret ∨ ∃ nnn, i = .call nnn) ∧
    (t.disp ≠ s.disp → i = .cls ∨ ∃ x y n, i = .drw x y n) ∧
    (t.dt ≠ s.dt → ∃ x, i = .ldDtVx x) ∧
    (t.st ≠ s.st → ∃ x, i = .ldStVx x) ∧
    (t.I ≠ s.I → (∃ nnn, i = .ldI nnn) ∨ (∃ x, i = .addIVx x) ∨ (∃ x, i = .ldFVx x) ∨
      (Config.bulkAdvancesI = true ∧ ((∃ x, i = .ldMemVx x) ∨ ∃ x, i = .ldVxMem x))) ∧
    t.key = s.key

/-- Dead stack entries are unobservable (R24): two states that differ only in them step to states that differ only in
them. -/
def Obligations.DeadStackEntriesAreUnobservable : Prop :=
  ∀ s u : State, SameButDeadEntries s u →
    ∃ s' u', step s = .next s' ∧ step u = .next u' ∧ SameButDeadEntries s' u'

/-! ## The invariant -/

/-- The state after reset meets the invariant (its canonical form of memory is the model's choice, log 2). -/
def Obligations.ResetMeetsTheInvariant : Prop := Inv State.reset

/-- Every step keeps the invariant: memory stays in the canonical form, the model's choice (log 2), and a fault record
is the fault of the instruction at `pc` (R118, R28). -/
def Obligations.EveryStepKeepsTheInvariant : Prop :=
  ∀ s t : State, Inv s → step s = .next t → Inv t

/-- Every sequence of proper host operations keeps the invariant, whatever the order and the ratio of steps, ticks and
key changes (R5, R108). The canonical form of memory in the invariant is the model's choice (log 2), and so is the
premise on `restore` (log 9): an image with content, whatever its version tag, holds a capture of a state that meets
the invariant. An image with a wrong version tag and other content is left to RestoreGivesTheCapturedStateBack. -/
def Obligations.EveryHostScheduleKeepsTheInvariant : Prop :=
  ∀ (ops : List HostOp) (s : State), (∀ op ∈ ops, op.Proper) → Inv s → Inv (runHost ops s)

/-- Memories in canonical form that read alike at every address are the same data (log 2). -/
def Obligations.CanonicalMemoriesThatReadAlikeAreEqual : Prop :=
  ∀ m m' : Memory, m.wf → m'.wf → (∀ a, m.read a = m'.read a) → m = m'

/-! ## Load, capture, restore, end of run -/

/-- R138: a load that does not fit changes nothing; one that fits resets everything but the keys and writes the image at
0x200. The last clause, after an empty image the first step is a `DecodeError` of the word 0000, is the spec's own
inference ("The first step after it fetches the two zero bytes at 0x200"). That the model's own count of draws is kept
is log 1, the model's choice, and is not claimed here. -/
def Obligations.LoadResetsAndWritesTheImage : Prop :=
  ∀ (image : List Byte) (s : State),
    (0x200 + image.length > 4096 → hostOp (.load image) s = (s, .loadFailed)) ∧
    (0x200 + image.length ≤ 4096 → ∃ t, hostOp (.load image) s = (t, .ok) ∧
      (∀ k (h : k < image.length), t.mem.read (0x200 + k) = image[k]) ∧
      (∀ a, a < 0x200 ∨ 0x200 + image.length ≤ a → t.mem.read a = State.reset.mem.read a) ∧
      (∀ k : Key, t.keyDown k = s.keyDown k) ∧
      UnchangedBut [.memory, .keys, .draws] State.reset t ∧ t.pc.toNat = 0x200 ∧
      (image = [] → ∃ u, step t = .next u ∧
        u.status = .halted { kind := .decodeError, addr := 0x200, word := some 0x0000, bad := none }))

/-- R130, R131: `capture` changes nothing; restoring a capture gives every captured field back, the keys kept, so that
with the same keys and draws the very state is back; wrong version or truncated data is rejected without change. -/
def Obligations.RestoreGivesTheCapturedStateBack : Prop :=
  ∀ s u : State,
    hostOp .capture s = (s, .snapshot (capture s)) ∧
    (∃ t, hostOp (.restore (capture s).image) u = (t, .ok) ∧
      UnchangedBut [.keys, .draws] s t ∧ (∀ k : Key, t.keyDown k = u.keyDown k) ∧
      (u.key = s.key → u.draws = s.draws → t = s)) ∧
    ∀ img : SnapshotImage, (img.version ≠ Config.snapshotVersion ∨ img.content = none) →
      hostOp (.restore img) u = (u, .invalidSnapshot)

/-- At the end of a run (R141, the idle loop) the core keeps executing the jump: a step leaves the very same state. -/
def Obligations.TheIdleLoopStepsToItself : Prop :=
  ∀ s : State, s.AtIdleLoop → step s = .next s
end

