-- ==== Sys2Proof/Laws/Encoding.lean ====
section
/-! SUPPORT. The fields of a word put together from its parts (30_encoding.md R57), for the three layouts of R59, and
the register number's bits. -/

namespace Sys2Proof

/-- Concatenation as arithmetic: the first part is the more significant (00_scope.md R9). -/
theorem toNat_concat {m n : Nat} (x : BitVec m) (y : BitVec n) : (x ++ y).toNat = x.toNat * 2 ^ n + y.toNat := by
  rw [BitVec.toNat_append, ← Nat.shiftLeft_add_eq_or_of_lt y.isLt, Nat.shiftLeft_eq]

@[simp] theorem toNat_regBits (x : Reg) : (regBits x).toNat = x.val := rfl

theorem val_fieldX (w : Word) : (fieldX w).val = w.toNat / 256 % 16 := by
  show (w.extractLsb' 8 4).toNat = _
  rw [BitVec.extractLsb'_toNat, Nat.shiftRight_eq_div_pow]

theorem val_fieldY (w : Word) : (fieldY w).val = w.toNat / 16 % 16 := by
  show (w.extractLsb' 4 4).toNat = _
  rw [BitVec.extractLsb'_toNat, Nat.shiftRight_eq_div_pow]

theorem toNat_fieldOp (w : Word) : (fieldOp w).toNat = w.toNat / 4096 % 16 := by
  rw [fieldOp, BitVec.extractLsb'_toNat, Nat.shiftRight_eq_div_pow]

theorem toNat_fieldN (w : Word) : (fieldN w).toNat = w.toNat % 16 := by
  rw [fieldN, BitVec.extractLsb'_toNat, Nat.shiftRight_zero]

theorem toNat_fieldNN (w : Word) : (fieldNN w).toNat = w.toNat % 256 := by
  rw [fieldNN, BitVec.extractLsb'_toNat, Nat.shiftRight_zero]

theorem toNat_fieldNNN (w : Word) : (fieldNNN w).toNat = w.toNat % 4096 := by
  rw [fieldNNN, BitVec.extractLsb'_toNat, Nat.shiftRight_zero]

/-! ## The value of a word in each layout of R59 -/

/-- Formats `XY` and `XYN`: op, x, y, n. -/
theorem toNat_digits (a b c d : BitVec 4) :
    (a ++ b ++ c ++ d : Word).toNat = a.toNat * 4096 + b.toNat * 256 + c.toNat * 16 + d.toNat := by
  show (a ++ b ++ c ++ d).toNat = _
  simp only [toNat_concat]
  omega

/-- Formats `XI` and `XS`: op, x, a byte. -/
theorem toNat_digitsByte (a b : BitVec 4) (nn : Byte) :
    (a ++ b ++ nn : Word).toNat = a.toNat * 4096 + b.toNat * 256 + nn.toNat := by
  show (a ++ b ++ nn).toNat = _
  simp only [toNat_concat]
  omega

/-- Format `A`: op, an address. -/
theorem toNat_digitAddr (a : BitVec 4) (nnn : BitVec 12) :
    (a ++ nnn : Word).toNat = a.toNat * 4096 + nnn.toNat := by
  show (a ++ nnn).toNat = _
  simp only [toNat_concat]
  omega

/-! ## The fields of a word in each layout of R59 -/

/-- Formats `XY` and `XYN`. -/
theorem fields_digits (a d : BitVec 4) (x y : Reg) :
    fieldOp (a ++ regBits x ++ regBits y ++ d) = a ∧ fieldX (a ++ regBits x ++ regBits y ++ d) = x ∧
      fieldY (a ++ regBits x ++ regBits y ++ d) = y ∧ fieldN (a ++ regBits x ++ regBits y ++ d) = d := by
  have h := toNat_digits a (regBits x) (regBits y) d
  have ha := a.isLt
  have hx := x.isLt
  have hy := y.isLt
  have hd := d.isLt
  simp only [toNat_regBits] at h
  refine ⟨BitVec.eq_of_toNat_eq ?_, Fin.ext ?_, Fin.ext ?_, BitVec.eq_of_toNat_eq ?_⟩
  · rw [toNat_fieldOp, h]; omega
  · rw [val_fieldX, h]; omega
  · rw [val_fieldY, h]; omega
  · rw [toNat_fieldN, h]; omega

/-- Formats `XI` and `XS`. -/
theorem fields_digitsByte (a : BitVec 4) (x : Reg) (nn : Byte) :
    fieldOp (a ++ regBits x ++ nn) = a ∧ fieldX (a ++ regBits x ++ nn) = x ∧
      fieldNN (a ++ regBits x ++ nn) = nn := by
  have h := toNat_digitsByte a (regBits x) nn
  have ha := a.isLt
  have hx := x.isLt
  have hn := nn.isLt
  simp only [toNat_regBits] at h
  refine ⟨BitVec.eq_of_toNat_eq ?_, Fin.ext ?_, BitVec.eq_of_toNat_eq ?_⟩
  · rw [toNat_fieldOp, h]; omega
  · rw [val_fieldX, h]; omega
  · rw [toNat_fieldNN, h]; omega

/-- Format `A`. -/
theorem fields_digitAddr (a : BitVec 4) (nnn : BitVec 12) :
    fieldOp (a ++ nnn) = a ∧ fieldNNN (a ++ nnn) = nnn := by
  have h := toNat_digitAddr a nnn
  have ha := a.isLt
  have hn := nnn.isLt
  refine ⟨BitVec.eq_of_toNat_eq ?_, BitVec.eq_of_toNat_eq ?_⟩
  · rw [toNat_fieldOp, h]; omega
  · rw [toNat_fieldNNN, h]; omega

end Sys2Proof
end

