-- ==== Sys2Proof/Laws/State.lean ====
section
/-! SUPPORT. One lemma per field per update of the state, true by `rfl`, so that no later proof unfolds a record update;
and what a register reads as after each update. -/

namespace Sys2Proof.Machine

variable (s : State)

/-! ### `setMem` -/

@[simp] theorem State.setMem_mem (m : Memory) : (s.setMem m).mem = m := rfl
@[simp] theorem State.setMem_V (m : Memory) : (s.setMem m).V = s.V := rfl
@[simp] theorem State.setMem_I (m : Memory) : (s.setMem m).I = s.I := rfl
@[simp] theorem State.setMem_pc (m : Memory) : (s.setMem m).pc = s.pc := rfl
@[simp] theorem State.setMem_sp (m : Memory) : (s.setMem m).sp = s.sp := rfl
@[simp] theorem State.setMem_stack (m : Memory) : (s.setMem m).stack = s.stack := rfl
@[simp] theorem State.setMem_dt (m : Memory) : (s.setMem m).dt = s.dt := rfl
@[simp] theorem State.setMem_st (m : Memory) : (s.setMem m).st = s.st := rfl
@[simp] theorem State.setMem_disp (m : Memory) : (s.setMem m).disp = s.disp := rfl
@[simp] theorem State.setMem_key (m : Memory) : (s.setMem m).key = s.key := rfl
@[simp] theorem State.setMem_status (m : Memory) : (s.setMem m).status = s.status := rfl
@[simp] theorem State.setMem_draws (m : Memory) : (s.setMem m).draws = s.draws := rfl
@[simp] theorem State.setMem_getV (m : Memory) (r : Reg) : (s.setMem m).getV r = s.getV r := rfl
@[simp] theorem State.setMem_keyDown (m : Memory) (k : Key) : (s.setMem m).keyDown k = s.keyDown k := rfl

/-! ### `setI` -/

@[simp] theorem State.setI_mem (v : Word) : (s.setI v).mem = s.mem := rfl
@[simp] theorem State.setI_V (v : Word) : (s.setI v).V = s.V := rfl
@[simp] theorem State.setI_I (v : Word) : (s.setI v).I = v := rfl
@[simp] theorem State.setI_pc (v : Word) : (s.setI v).pc = s.pc := rfl
@[simp] theorem State.setI_sp (v : Word) : (s.setI v).sp = s.sp := rfl
@[simp] theorem State.setI_stack (v : Word) : (s.setI v).stack = s.stack := rfl
@[simp] theorem State.setI_dt (v : Word) : (s.setI v).dt = s.dt := rfl
@[simp] theorem State.setI_st (v : Word) : (s.setI v).st = s.st := rfl
@[simp] theorem State.setI_disp (v : Word) : (s.setI v).disp = s.disp := rfl
@[simp] theorem State.setI_key (v : Word) : (s.setI v).key = s.key := rfl
@[simp] theorem State.setI_status (v : Word) : (s.setI v).status = s.status := rfl
@[simp] theorem State.setI_draws (v : Word) : (s.setI v).draws = s.draws := rfl
@[simp] theorem State.setI_getV (v : Word) (r : Reg) : (s.setI v).getV r = s.getV r := rfl
@[simp] theorem State.setI_keyDown (v : Word) (k : Key) : (s.setI v).keyDown k = s.keyDown k := rfl

/-! ### `setPc` -/

@[simp] theorem State.setPc_mem (v : Word) : (s.setPc v).mem = s.mem := rfl
@[simp] theorem State.setPc_V (v : Word) : (s.setPc v).V = s.V := rfl
@[simp] theorem State.setPc_I (v : Word) : (s.setPc v).I = s.I := rfl
@[simp] theorem State.setPc_pc (v : Word) : (s.setPc v).pc = v := rfl
@[simp] theorem State.setPc_sp (v : Word) : (s.setPc v).sp = s.sp := rfl
@[simp] theorem State.setPc_stack (v : Word) : (s.setPc v).stack = s.stack := rfl
@[simp] theorem State.setPc_dt (v : Word) : (s.setPc v).dt = s.dt := rfl
@[simp] theorem State.setPc_st (v : Word) : (s.setPc v).st = s.st := rfl
@[simp] theorem State.setPc_disp (v : Word) : (s.setPc v).disp = s.disp := rfl
@[simp] theorem State.setPc_key (v : Word) : (s.setPc v).key = s.key := rfl
@[simp] theorem State.setPc_status (v : Word) : (s.setPc v).status = s.status := rfl
@[simp] theorem State.setPc_draws (v : Word) : (s.setPc v).draws = s.draws := rfl
@[simp] theorem State.setPc_getV (v : Word) (r : Reg) : (s.setPc v).getV r = s.getV r := rfl
@[simp] theorem State.setPc_keyDown (v : Word) (k : Key) : (s.setPc v).keyDown k = s.keyDown k := rfl

/-! ### `setDt` -/

@[simp] theorem State.setDt_mem (v : Byte) : (s.setDt v).mem = s.mem := rfl
@[simp] theorem State.setDt_V (v : Byte) : (s.setDt v).V = s.V := rfl
@[simp] theorem State.setDt_I (v : Byte) : (s.setDt v).I = s.I := rfl
@[simp] theorem State.setDt_pc (v : Byte) : (s.setDt v).pc = s.pc := rfl
@[simp] theorem State.setDt_sp (v : Byte) : (s.setDt v).sp = s.sp := rfl
@[simp] theorem State.setDt_stack (v : Byte) : (s.setDt v).stack = s.stack := rfl
@[simp] theorem State.setDt_dt (v : Byte) : (s.setDt v).dt = v := rfl
@[simp] theorem State.setDt_st (v : Byte) : (s.setDt v).st = s.st := rfl
@[simp] theorem State.setDt_disp (v : Byte) : (s.setDt v).disp = s.disp := rfl
@[simp] theorem State.setDt_key (v : Byte) : (s.setDt v).key = s.key := rfl
@[simp] theorem State.setDt_status (v : Byte) : (s.setDt v).status = s.status := rfl
@[simp] theorem State.setDt_draws (v : Byte) : (s.setDt v).draws = s.draws := rfl
@[simp] theorem State.setDt_getV (v : Byte) (r : Reg) : (s.setDt v).getV r = s.getV r := rfl
@[simp] theorem State.setDt_keyDown (v : Byte) (k : Key) : (s.setDt v).keyDown k = s.keyDown k := rfl

/-! ### `setSt` -/

@[simp] theorem State.setSt_mem (v : Byte) : (s.setSt v).mem = s.mem := rfl
@[simp] theorem State.setSt_V (v : Byte) : (s.setSt v).V = s.V := rfl
@[simp] theorem State.setSt_I (v : Byte) : (s.setSt v).I = s.I := rfl
@[simp] theorem State.setSt_pc (v : Byte) : (s.setSt v).pc = s.pc := rfl
@[simp] theorem State.setSt_sp (v : Byte) : (s.setSt v).sp = s.sp := rfl
@[simp] theorem State.setSt_stack (v : Byte) : (s.setSt v).stack = s.stack := rfl
@[simp] theorem State.setSt_dt (v : Byte) : (s.setSt v).dt = s.dt := rfl
@[simp] theorem State.setSt_st (v : Byte) : (s.setSt v).st = v := rfl
@[simp] theorem State.setSt_disp (v : Byte) : (s.setSt v).disp = s.disp := rfl
@[simp] theorem State.setSt_key (v : Byte) : (s.setSt v).key = s.key := rfl
@[simp] theorem State.setSt_status (v : Byte) : (s.setSt v).status = s.status := rfl
@[simp] theorem State.setSt_draws (v : Byte) : (s.setSt v).draws = s.draws := rfl
@[simp] theorem State.setSt_getV (v : Byte) (r : Reg) : (s.setSt v).getV r = s.getV r := rfl
@[simp] theorem State.setSt_keyDown (v : Byte) (k : Key) : (s.setSt v).keyDown k = s.keyDown k := rfl

/-! ### `setDisp` -/

@[simp] theorem State.setDisp_mem (d : Display) : (s.setDisp d).mem = s.mem := rfl
@[simp] theorem State.setDisp_V (d : Display) : (s.setDisp d).V = s.V := rfl
@[simp] theorem State.setDisp_I (d : Display) : (s.setDisp d).I = s.I := rfl
@[simp] theorem State.setDisp_pc (d : Display) : (s.setDisp d).pc = s.pc := rfl
@[simp] theorem State.setDisp_sp (d : Display) : (s.setDisp d).sp = s.sp := rfl
@[simp] theorem State.setDisp_stack (d : Display) : (s.setDisp d).stack = s.stack := rfl
@[simp] theorem State.setDisp_dt (d : Display) : (s.setDisp d).dt = s.dt := rfl
@[simp] theorem State.setDisp_st (d : Display) : (s.setDisp d).st = s.st := rfl
@[simp] theorem State.setDisp_disp (d : Display) : (s.setDisp d).disp = d := rfl
@[simp] theorem State.setDisp_key (d : Display) : (s.setDisp d).key = s.key := rfl
@[simp] theorem State.setDisp_status (d : Display) : (s.setDisp d).status = s.status := rfl
@[simp] theorem State.setDisp_draws (d : Display) : (s.setDisp d).draws = s.draws := rfl
@[simp] theorem State.setDisp_getV (d : Display) (r : Reg) : (s.setDisp d).getV r = s.getV r := rfl
@[simp] theorem State.setDisp_keyDown (d : Display) (k : Key) : (s.setDisp d).keyDown k = s.keyDown k := rfl

/-! ### `setStatus` -/

@[simp] theorem State.setStatus_mem (v : Status) : (s.setStatus v).mem = s.mem := rfl
@[simp] theorem State.setStatus_V (v : Status) : (s.setStatus v).V = s.V := rfl
@[simp] theorem State.setStatus_I (v : Status) : (s.setStatus v).I = s.I := rfl
@[simp] theorem State.setStatus_pc (v : Status) : (s.setStatus v).pc = s.pc := rfl
@[simp] theorem State.setStatus_sp (v : Status) : (s.setStatus v).sp = s.sp := rfl
@[simp] theorem State.setStatus_stack (v : Status) : (s.setStatus v).stack = s.stack := rfl
@[simp] theorem State.setStatus_dt (v : Status) : (s.setStatus v).dt = s.dt := rfl
@[simp] theorem State.setStatus_st (v : Status) : (s.setStatus v).st = s.st := rfl
@[simp] theorem State.setStatus_disp (v : Status) : (s.setStatus v).disp = s.disp := rfl
@[simp] theorem State.setStatus_key (v : Status) : (s.setStatus v).key = s.key := rfl
@[simp] theorem State.setStatus_status (v : Status) : (s.setStatus v).status = v := rfl
@[simp] theorem State.setStatus_draws (v : Status) : (s.setStatus v).draws = s.draws := rfl
@[simp] theorem State.setStatus_getV (v : Status) (r : Reg) : (s.setStatus v).getV r = s.getV r := rfl
@[simp] theorem State.setStatus_keyDown (v : Status) (k : Key) : (s.setStatus v).keyDown k = s.keyDown k := rfl

/-! ### `setV` -/

@[simp] theorem State.setV_mem (x : Reg) (b : Byte) : (s.setV x b).mem = s.mem := rfl
@[simp] theorem State.setV_V (x : Reg) (b : Byte) : (s.setV x b).V = s.V.set x b := rfl
@[simp] theorem State.setV_I (x : Reg) (b : Byte) : (s.setV x b).I = s.I := rfl
@[simp] theorem State.setV_pc (x : Reg) (b : Byte) : (s.setV x b).pc = s.pc := rfl
@[simp] theorem State.setV_sp (x : Reg) (b : Byte) : (s.setV x b).sp = s.sp := rfl
@[simp] theorem State.setV_stack (x : Reg) (b : Byte) : (s.setV x b).stack = s.stack := rfl
@[simp] theorem State.setV_dt (x : Reg) (b : Byte) : (s.setV x b).dt = s.dt := rfl
@[simp] theorem State.setV_st (x : Reg) (b : Byte) : (s.setV x b).st = s.st := rfl
@[simp] theorem State.setV_disp (x : Reg) (b : Byte) : (s.setV x b).disp = s.disp := rfl
@[simp] theorem State.setV_key (x : Reg) (b : Byte) : (s.setV x b).key = s.key := rfl
@[simp] theorem State.setV_status (x : Reg) (b : Byte) : (s.setV x b).status = s.status := rfl
@[simp] theorem State.setV_draws (x : Reg) (b : Byte) : (s.setV x b).draws = s.draws := rfl
@[simp] theorem State.setV_keyDown (x : Reg) (b : Byte) (k : Key) : (s.setV x b).keyDown k = s.keyDown k := rfl

/-- A register after a register write (10_state.md R16: number i always names `V[i]`). -/
@[simp] theorem State.getV_setV (x : Reg) (b : Byte) (r : Reg) :
    (s.setV x b).getV r = if r = x then b else s.getV r := by
  simp only [State.getV, State.setV, Fin.getElem_fin, Vector.getElem_set, Fin.ext_iff, eq_comm]

/-! ### `setKeyBit` -/

@[simp] theorem State.setKeyBit_mem (k : Key) (b : Bool) : (s.setKeyBit k b).mem = s.mem := rfl
@[simp] theorem State.setKeyBit_V (k : Key) (b : Bool) : (s.setKeyBit k b).V = s.V := rfl
@[simp] theorem State.setKeyBit_I (k : Key) (b : Bool) : (s.setKeyBit k b).I = s.I := rfl
@[simp] theorem State.setKeyBit_pc (k : Key) (b : Bool) : (s.setKeyBit k b).pc = s.pc := rfl
@[simp] theorem State.setKeyBit_sp (k : Key) (b : Bool) : (s.setKeyBit k b).sp = s.sp := rfl
@[simp] theorem State.setKeyBit_stack (k : Key) (b : Bool) : (s.setKeyBit k b).stack = s.stack := rfl
@[simp] theorem State.setKeyBit_dt (k : Key) (b : Bool) : (s.setKeyBit k b).dt = s.dt := rfl
@[simp] theorem State.setKeyBit_st (k : Key) (b : Bool) : (s.setKeyBit k b).st = s.st := rfl
@[simp] theorem State.setKeyBit_disp (k : Key) (b : Bool) : (s.setKeyBit k b).disp = s.disp := rfl
@[simp] theorem State.setKeyBit_key (k : Key) (b : Bool) : (s.setKeyBit k b).key = s.key.set k b := rfl
@[simp] theorem State.setKeyBit_status (k : Key) (b : Bool) : (s.setKeyBit k b).status = s.status := rfl
@[simp] theorem State.setKeyBit_draws (k : Key) (b : Bool) : (s.setKeyBit k b).draws = s.draws := rfl
@[simp] theorem State.setKeyBit_getV (k : Key) (b : Bool) (r : Reg) : (s.setKeyBit k b).getV r = s.getV r := rfl

/-- A key after a key is set. -/
@[simp] theorem State.keyDown_setKeyBit (k : Key) (b : Bool) (q : Key) :
    (s.setKeyBit k b).keyDown q = if q = k then b else s.keyDown q := by
  simp only [State.keyDown, State.setKeyBit, Fin.getElem_fin, Vector.getElem_set, Fin.ext_iff, eq_comm]

/-! ### `loadRegsUpTo` -/

@[simp] theorem State.loadRegsUpTo_mem (x : Reg) (bs : List Byte) : (s.loadRegsUpTo x bs).mem = s.mem := rfl
@[simp] theorem State.loadRegsUpTo_I (x : Reg) (bs : List Byte) : (s.loadRegsUpTo x bs).I = s.I := rfl
@[simp] theorem State.loadRegsUpTo_pc (x : Reg) (bs : List Byte) : (s.loadRegsUpTo x bs).pc = s.pc := rfl
@[simp] theorem State.loadRegsUpTo_sp (x : Reg) (bs : List Byte) : (s.loadRegsUpTo x bs).sp = s.sp := rfl
@[simp] theorem State.loadRegsUpTo_stack (x : Reg) (bs : List Byte) : (s.loadRegsUpTo x bs).stack = s.stack := rfl
@[simp] theorem State.loadRegsUpTo_dt (x : Reg) (bs : List Byte) : (s.loadRegsUpTo x bs).dt = s.dt := rfl
@[simp] theorem State.loadRegsUpTo_st (x : Reg) (bs : List Byte) : (s.loadRegsUpTo x bs).st = s.st := rfl
@[simp] theorem State.loadRegsUpTo_disp (x : Reg) (bs : List Byte) : (s.loadRegsUpTo x bs).disp = s.disp := rfl
@[simp] theorem State.loadRegsUpTo_key (x : Reg) (bs : List Byte) : (s.loadRegsUpTo x bs).key = s.key := rfl
@[simp] theorem State.loadRegsUpTo_status (x : Reg) (bs : List Byte) : (s.loadRegsUpTo x bs).status = s.status := rfl
@[simp] theorem State.loadRegsUpTo_draws (x : Reg) (bs : List Byte) : (s.loadRegsUpTo x bs).draws = s.draws := rfl

/-- A register after a bulk load: the loaded byte up to `x`, unchanged above (44_index_memory.md R114). -/
@[simp] theorem State.getV_loadRegsUpTo (x : Reg) (bs : List Byte) (r : Reg) :
    (s.loadRegsUpTo x bs).getV r = if r ≤ x then bs.getD r.val 0 else s.getV r := by
  simp only [State.getV, State.loadRegsUpTo, Fin.getElem_fin, Vector.getElem_ofFn, Fin.eta]

/-! ### The fetch advance and the skip -/

@[simp] theorem State.advancePc_pc : s.advancePc.pc = s.pc + 2 := rfl
@[simp] theorem State.advancePc_mem : s.advancePc.mem = s.mem := rfl
@[simp] theorem State.advancePc_V : s.advancePc.V = s.V := rfl
@[simp] theorem State.advancePc_I : s.advancePc.I = s.I := rfl
@[simp] theorem State.advancePc_sp : s.advancePc.sp = s.sp := rfl
@[simp] theorem State.advancePc_stack : s.advancePc.stack = s.stack := rfl
@[simp] theorem State.advancePc_dt : s.advancePc.dt = s.dt := rfl
@[simp] theorem State.advancePc_st : s.advancePc.st = s.st := rfl
@[simp] theorem State.advancePc_disp : s.advancePc.disp = s.disp := rfl
@[simp] theorem State.advancePc_key : s.advancePc.key = s.key := rfl
@[simp] theorem State.advancePc_status : s.advancePc.status = s.status := rfl
@[simp] theorem State.advancePc_draws : s.advancePc.draws = s.draws := rfl
@[simp] theorem State.advancePc_getV (r : Reg) : s.advancePc.getV r = s.getV r := rfl
@[simp] theorem State.advancePc_keyDown (k : Key) : s.advancePc.keyDown k = s.keyDown k := rfl

end Sys2Proof.Machine
end

