-- ==== Sys2Proof/Laws/Memory.lean ====
section
/-! SUPPORT. The laws of memory: what a read gives after a write, of one byte and of several, and that every memory
operation keeps the canonical form (20_memory.md R39, R40). -/

namespace Sys2Proof.Machine

/-! ## One byte -/

theorem Memory.read_unlist (m : Memory) (a p : Nat) :
    (m.unlist a).read p = if p = a then Memory.initial p else m.read p := by
  induction m with
  | nil => simp [Memory.unlist, Memory.read]
  | cons c m ih =>
    by_cases hc : c.1 = a
    · have : Memory.unlist (c :: m) a = Memory.unlist m a := by simp [Memory.unlist, hc]
      rw [this, ih]
      by_cases hp : p = a
      · simp [hp]
      · simp [hp, Memory.read, hc, Ne.symm hp]
    · have : Memory.unlist (c :: m) a = c :: Memory.unlist m a := by simp [Memory.unlist, hc]
      rw [this, Memory.read, Memory.read, ih]
      by_cases hp : p = a
      · simp [hp, hc]
      · simp [hp]

theorem Memory.mem_unlist {m : Memory} {a : Nat} {c : Host.Cell} (h : c ∈ m.unlist a) : c ∈ m ∧ c.1 ≠ a := by
  simpa [Memory.unlist] using h

theorem Memory.mem_list {a : Nat} {b : Byte} {m : Memory} {c : Host.Cell} :
    c ∈ Memory.list a b m ↔ c = (a, b) ∨ c ∈ m := by
  induction m with
  | nil => simp [Memory.list]
  | cons d m ih =>
    rw [Memory.list]
    split
    · simp
    · simp only [List.mem_cons, ih]
      tauto

theorem Memory.read_list {a : Nat} {b : Byte} {m : Memory} (h : ∀ c ∈ m, c.1 ≠ a) (p : Nat) :
    (Memory.list a b m).read p = if p = a then b else m.read p := by
  induction m with
  | nil => simp [Memory.list, Memory.read, eq_comm]
  | cons c m ih =>
    have hc : c.1 ≠ a := h c (by simp)
    rw [Memory.list]
    split
    · simp only [Memory.read, eq_comm]
    · rw [Memory.read, ih (fun d hd => h d (by simp [hd])), Memory.read]
      by_cases hp : p = a
      · simp [hp, hc]
      · simp [hp]

/-- A byte read after a byte is written. -/
@[simp] theorem Memory.read_write (m : Memory) (a : Nat) (b : Byte) (p : Nat) :
    (m.write a b).read p = if p = a then b else m.read p := by
  rw [Memory.write]
  split
  · rename_i hb
    rw [Memory.read_unlist]
    split
    · rename_i hp
      rw [hp, hb]
    · rfl
  · rw [Memory.read_list (fun c hc => (Memory.mem_unlist hc).2), Memory.read_unlist]
    split <;> rfl

/-! ## Several bytes -/

/-- A byte read after bytes are written at `a, a+1, …`. -/
theorem Memory.read_writeBytes (bs : List Byte) (m : Memory) (a p : Nat) :
    (m.writeBytes a bs).read p = if a ≤ p ∧ p < a + bs.length then bs.getD (p - a) 0 else m.read p := by
  induction bs generalizing m a with
  | nil =>
    have : ¬ (a ≤ p ∧ p < a) := by omega
    simp [Memory.writeBytes, this]
  | cons b bs ih =>
    rw [Memory.writeBytes, ih, Memory.read_write]
    by_cases hp : p = a
    · subst hp
      simp
    · by_cases hin : a + 1 ≤ p ∧ p < a + 1 + bs.length
      · have h1 : a ≤ p ∧ p < a + (bs.length + 1) := by omega
        obtain ⟨k, rfl⟩ : ∃ k, p = a + 1 + k := ⟨p - (a + 1), by omega⟩
        have h2 : a + 1 + k - a = k + 1 := by omega
        have h3 : a + 1 + k - (a + 1) = k := by omega
        rw [if_pos hin, List.length_cons, if_pos h1, h2, h3, List.getD_cons_succ]
      · have h1 : ¬ (a ≤ p ∧ p < a + (bs.length + 1)) := by omega
        rw [if_neg hin, if_neg hp, List.length_cons, if_neg h1]

@[simp] theorem Memory.readBytes_length (m : Memory) (a n : Nat) : (m.readBytes a n).length = n := by
  induction n generalizing a with
  | zero => rfl
  | succ n ih => simp [Memory.readBytes, ih]

/-- The k-th of the bytes read at `a, a+1, …`. -/
theorem Memory.readBytes_getD (m : Memory) (a n k : Nat) (h : k < n) :
    (m.readBytes a n).getD k 0 = m.read (a + k) := by
  induction n generalizing a k with
  | zero => omega
  | succ n ih =>
    cases k with
    | zero => simp [Memory.readBytes]
    | succ k =>
      rw [Memory.readBytes, List.getD_cons_succ, ih (a + 1) k (by omega)]
      congr 1
      omega

/-! ## The canonical form -/

theorem Memory.wf_nil : Memory.wf [] := ⟨List.Pairwise.nil, fun _ hc => absurd hc (List.not_mem_nil)⟩

theorem Memory.wf_unlist {m : Memory} (h : m.wf) (a : Nat) : (m.unlist a).wf :=
  ⟨h.1.filter _, fun c hc => h.2 c (Memory.mem_unlist hc).1⟩

theorem Memory.pairwise_list {a : Nat} {b : Byte} {m : Memory} (hm : m.Pairwise (fun c d => c.1 < d.1))
    (h : ∀ c ∈ m, c.1 ≠ a) : (Memory.list a b m).Pairwise (fun c d => c.1 < d.1) := by
  induction m with
  | nil => simp [Memory.list]
  | cons c m ih =>
    rw [List.pairwise_cons] at hm
    rw [Memory.list]
    split
    · rename_i hac
      refine List.pairwise_cons.2 ⟨fun d hd => ?_, List.pairwise_cons.2 hm⟩
      rcases List.mem_cons.1 hd with rfl | hd
      · exact hac
      · exact Nat.lt_trans hac (hm.1 d hd)
    · have hc : c.1 ≠ a := h c (by simp)
      refine List.pairwise_cons.2 ⟨fun d hd => ?_, ih hm.2 (fun d hd => h d (by simp [hd]))⟩
      rcases Memory.mem_list.1 hd with rfl | hd
      · show c.1 < a
        omega
      · exact hm.1 d hd

/-- A write of an existing byte keeps the canonical form. -/
theorem Memory.wf_write {m : Memory} (h : m.wf) {a : Nat} (ha : a < 4096) (b : Byte) :
    (m.write a b).wf := by
  rw [Memory.write]
  split
  · exact Memory.wf_unlist h a
  · rename_i hb
    refine ⟨Memory.pairwise_list (Memory.wf_unlist h a).1 (fun c hc => (Memory.mem_unlist hc).2), fun c hc => ?_⟩
    rcases Memory.mem_list.1 hc with rfl | hc
    · exact ⟨ha, hb⟩
    · exact (Memory.wf_unlist h a).2 c hc

/-- Writes of existing bytes keep the canonical form. -/
theorem Memory.wf_writeBytes {m : Memory} (h : m.wf) {a : Nat} {bs : List Byte}
    (ha : a + bs.length ≤ 4096) : (m.writeBytes a bs).wf := by
  induction bs generalizing m a with
  | nil => exact h
  | cons b bs ih =>
    rw [List.length_cons] at ha
    exact ih (Memory.wf_write h (by omega) b) (by omega)

end Sys2Proof.Machine
end

