-- ==== Sys2Proof/Laws/Ops.lean ====
section
/-! SUPPORT. One lemma per shared operation that says everything it can do: the bounds check, the fetch, the stack, the
index operand, the guarded accesses, taking an exception, the skip, the flag write, the display cell. -/

namespace Sys2Proof.Machine

/-! ## The bounds check and the fetch -/

/-- The bounds check passes exactly when no byte of the access lies above 4095 (20_memory.md R41). -/
theorem outOfRange_eq_none_iff (a n : Nat) : outOfRange a n = none ↔ n = 0 ∨ a + n ≤ 4096 := by
  unfold outOfRange
  split <;> simp <;> omega

/-- The bounds check names the lowest address above 4095 (R43). -/
theorem outOfRange_eq_some_iff (a n bad : Nat) :
    outOfRange a n = some bad ↔ (0 < n ∧ 4096 < a + n) ∧ bad = max a 4096 := by
  unfold outOfRange
  split <;> simp <;> omega

/-- The fetch gives a word exactly when both bytes are in memory (R49). -/
theorem fetchWord_eq_ok (s : State) (h : s.pc.toNat + 1 ≤ 4095) :
    fetchWord s = .ok (wordOfBytes (s.mem.read s.pc.toNat) (s.mem.read (s.pc.toNat + 1))) := by
  have : outOfRange s.pc.toNat 2 = none := (outOfRange_eq_none_iff _ _).2 (by omega)
  simp [fetchWord, this]

theorem fetchWord_eq_error (s : State) (h : 4095 < s.pc.toNat + 1) :
    fetchWord s = .error (max s.pc.toNat 4096) := by
  have : outOfRange s.pc.toNat 2 = some (max s.pc.toNat 4096) :=
    (outOfRange_eq_some_iff _ _ _).2 ⟨⟨by omega, by omega⟩, rfl⟩
  simp [fetchWord, this]

/-! ## The call stack -/

/-- A push fills entry `sp` and raises `sp` by one, or finds the stack full (10_state.md R23). -/
theorem State.push_cases (s : State) (v : Word) :
    (s.sp.val = 16 ∧ s.push v = none) ∨
    ∃ (h : s.sp.val < 16) (h' : s.sp.val + 1 < 17),
      s.push v = some { s with stack := s.stack.set s.sp.val v h, sp := ⟨s.sp.val + 1, h'⟩ } := by
  have hsp : s.sp.val < 17 := s.sp.isLt
  by_cases h : s.sp.val < 16
  · exact .inr ⟨h, by omega, by simp [State.push, h]⟩
  · exact .inl ⟨by omega, by simp [State.push, h]⟩

/-- A pop reads the top entry and lowers `sp` by one, every entry kept, or finds the stack empty (R23, R24). -/
theorem State.pop_cases (s : State) :
    (s.sp.val = 0 ∧ s.pop = none) ∨
    ∃ (h : s.sp.val - 1 < 16) (h' : s.sp.val - 1 < 17), 0 < s.sp.val ∧
      s.pop = some (s.stack[s.sp.val - 1], { s with sp := ⟨s.sp.val - 1, h'⟩ }) := by
  have hsp : s.sp.val < 17 := s.sp.isLt
  by_cases h : 0 < s.sp.val
  · exact .inr ⟨by omega, by omega, h, by simp [State.pop, h]⟩
  · exact .inl ⟨by omega, by simp [State.pop, h]⟩

/-! ## The operand checks -/

/-- The index operand is the register's value, or there is none because it is above 15 (R104, R111). -/
theorem indexOperand_cases (v : Byte) :
    (∃ h : v.toNat < 16, indexOperand v = some ⟨v.toNat, h⟩) ∨ (15 < v.toNat ∧ indexOperand v = none) := by
  by_cases h : v.toNat ≤ 15
  · exact .inl ⟨by omega, by simp [indexOperand, h]⟩
  · exact .inr ⟨by omega, by simp [indexOperand, h]⟩

/-- An instruction guarded by an index runs with that index, or raises `OutOfBounds` with the value. -/
theorem withIndex_cases (i : Instr) (x : Reg) (s : State) (k : Fin 16 → State) :
    (∃ h : (s.getV x).toNat < 16, withIndex i x s k = .next (k ⟨(s.getV x).toNat, h⟩)) ∨
    (15 < (s.getV x).toNat ∧ withIndex i x s k = raise .outOfBounds i (some (s.getV x).toNat) s) := by
  rcases indexOperand_cases (s.getV x) with ⟨h, e⟩ | ⟨h, e⟩
  · exact .inl ⟨h, by simp [withIndex, e]⟩
  · exact .inr ⟨h, by simp [withIndex, e]⟩

/-- An instruction guarded by the bytes at `I` runs, or raises `OutOfBounds` with the lowest bad address. -/
theorem withBytesAtI_cases (i : Instr) (n : Nat) (s k : State) :
    ((n = 0 ∨ s.I.toNat + n ≤ 4096) ∧ withBytesAtI i n s k = .next k) ∨
    ((0 < n ∧ 4096 < s.I.toNat + n) ∧
      withBytesAtI i n s k = raise .outOfBounds i (some (max s.I.toNat 4096)) s) := by
  rcases h : outOfRange s.I.toNat n with _ | bad
  · exact .inl ⟨(outOfRange_eq_none_iff _ _).1 h, by simp [withBytesAtI, h]⟩
  · obtain ⟨hn, rfl⟩ := (outOfRange_eq_some_iff _ _ _).1 h
    exact .inr ⟨hn, by simp [withBytesAtI, h]⟩

/-- The zero-extended address has the value of its field (30_encoding.md R58). -/
@[simp] theorem toNat_addrOperand (nnn : BitVec 12) : (addrOperand nnn).toNat = nnn.toNat := by
  have := nnn.isLt
  simp only [addrOperand, BitVec.truncate_eq_setWidth, BitVec.toNat_setWidth]
  omega

/-- `I` after a bulk transfer, for either value of `BULK_ADVANCES_I` (44_index_memory.md R115). -/
theorem toNat_indexAfterTransfer (x : Reg) (i : Word) :
    (indexAfterTransfer x i).toNat =
      if Config.bulkAdvancesI = true then (i.toNat + x.val + 1) % 65536 else i.toNat := by
  unfold indexAfterTransfer
  split
  · rw [BitVec.toNat_add, BitVec.toNat_ofNat]
    omega
  · rfl

/-- One draw: the free byte of the current count, and the count raised by one, nothing else changed. -/
theorem State.draw8_eq (s : State) :
    s.draw8 = (Config.randomByte s.draws, { s with draws := s.draws + 1 }) := rfl

/-- A tick's decrement stops at 0 (43_timers_input.md R102). -/
theorem toNat_countDown (v : Byte) : (countDown v).toNat = v.toNat - 1 := by
  unfold countDown
  split
  · simp_all
  · have : v.toNat ≠ 0 := fun h => ‹¬ v = 0› (BitVec.eq_of_toNat_eq h)
    simp only [BitVec.ofNat_eq_ofNat, BitVec.toNat_sub, BitVec.toNat_ofNat]
    omega

/-! ## Taking an exception -/

/-- Taking an exception changes `pc` and the status, nothing else (60_exceptions.md R118). -/
theorem takeException_eq (kind : FaultKind) (addr : Word) (word : Option Word) (bad : Option Nat) (s : State) :
    takeException kind addr word bad s = { s with pc := addr, status := .halted ⟨kind, addr, word, bad⟩ } := rfl

/-- `raise` answers the state of R118: `pc` back at the instruction, the fault recorded. -/
theorem raise_eq (kind : FaultKind) (i : Instr) (bad : Option Nat) (s : State) :
    raise kind i bad s =
      .next { s with pc := s.pc - 2, status := .halted ⟨kind, s.pc - 2, some (encode i), bad⟩ } := rfl

/-! ## Skips and flags -/

/-- A skip adds 2 to `pc` when its condition holds, and changes nothing else. -/
theorem State.skipIf_eq (s : State) (c : Bool) :
    s.skipIf c = { s with pc := if c then s.pc + 2 else s.pc } := by
  cases c <;> rfl

/-- A register after a flag-writing instruction: the result at the destination, the flag at VF, the rest unchanged. -/
theorem State.getV_writeFlagThenResult (s : State) (flag : Bool) (x : Reg) (b : Byte) (r : Reg) :
    (s.writeFlagThenResult flag x b).getV r =
      if r = x then b else if r = vf then flagByte flag else s.getV r := by
  simp [State.writeFlagThenResult]

/-! ## The display -/

theorem Display.cell_eq (d : Display) (r : Fin 32) (c : Fin 64) : d.cell r c = (d[r.val])[c.val] := rfl

/-- A cell after a cell is set. -/
theorem Display.cell_setCell (d : Display) (r : Fin 32) (c : Fin 64) (b : Bool) (r' : Fin 32) (c' : Fin 64) :
    (d.setCell r c b).cell r' c' = if r' = r ∧ c' = c then b else d.cell r' c' := by
  simp only [Display.cell_eq, Display.setCell, Fin.getElem_fin, Vector.getElem_set, Fin.ext_iff]
  by_cases hr : r.val = r'.val
  · simp only [hr, if_true, Vector.getElem_set, true_and, eq_comm]
  · simp only [hr, if_false, Ne.symm hr, false_and]

/-- Every cell of a cleared display is 0 (42_display.md R95). -/
@[simp] theorem Display.cell_blank (r : Fin 32) (c : Fin 64) : Display.blank.cell r c = false := by
  simp [Display.cell_eq, Display.blank]

/-- One sprite pixel: exactly the cell it lands on is inverted, and `hit` is set when that cell was set. -/
theorem drawPixel_spec (r c : Nat) (p : Display × Bool) :
    (∀ R C, (drawPixel r c p).1.cell R C =
      if R.val = r % 32 ∧ C.val = c % 64 then !p.1.cell R C else p.1.cell R C) ∧
    ((drawPixel r c p).2 = true ↔
      p.2 = true ∨ ∃ R C, R.val = r % 32 ∧ C.val = c % 64 ∧ p.1.cell R C = true) := by
  have hit : ∀ (R : Fin 32) (C : Fin 64), R.val = r % 32 → C.val = c % 64 →
      R = Fin.ofNat 32 r ∧ C = Fin.ofNat 64 c := fun R C h1 h2 => ⟨Fin.ext h1, Fin.ext h2⟩
  refine ⟨fun R C => ?_, ?_⟩
  · simp only [drawPixel, Display.cell_setCell]
    by_cases h : R.val = r % 32 ∧ C.val = c % 64
    · obtain ⟨rfl, rfl⟩ := hit R C h.1 h.2
      simp
    · rw [if_neg h, if_neg]
      rintro ⟨rfl, rfl⟩
      exact h ⟨rfl, rfl⟩
  · simp only [drawPixel, Bool.or_eq_true]
    refine or_congr_right ⟨fun h => ⟨_, _, rfl, rfl, h⟩, ?_⟩
    rintro ⟨R, C, h1, h2, h⟩
    obtain ⟨rfl, rfl⟩ := hit R C h1 h2
    exact h

/-! ## Bulk transfers -/

@[simp] theorem State.regsUpTo_length (s : State) (x : Reg) : (s.regsUpTo x).length = x.val + 1 := by
  have := x.isLt
  simp only [State.regsUpTo, List.length_take, Vector.length_toList]
  omega

/-- The k-th byte that a bulk store moves is `V[k]` (44_index_memory.md R113). -/
theorem State.regsUpTo_getD (s : State) (x r : Reg) (h : r ≤ x) : (s.regsUpTo x).getD r.val 0 = s.getV r := by
  have hr : r.val < x.val + 1 := Nat.lt_succ_of_le h
  have := r.isLt
  simp [State.regsUpTo, State.getV, List.getD, hr]

end Sys2Proof.Machine
end

