-- ==== Sys2Proof/Laws/Frames.lean ====
section
/-! SUPPORT. What each shared operation leaves unchanged, in the terms of Safety.lean. -/

namespace Sys2Proof.Machine

variable (s : State)

theorem unchangedBut_setMem (m : Memory) : UnchangedBut [.memory] s (s.setMem m) := by
  intro p hp; cases p <;> simp_all [Keeps]

theorem unchangedBut_setI (v : Word) : UnchangedBut [.index] s (s.setI v) := by
  intro p hp; cases p <;> simp_all [Keeps]

theorem unchangedBut_setPc (v : Word) : UnchangedBut [.pc] s (s.setPc v) := by
  intro p hp; cases p <;> simp_all [Keeps]

theorem unchangedBut_setDt (v : Byte) : UnchangedBut [.delay] s (s.setDt v) := by
  intro p hp; cases p <;> simp_all [Keeps]

theorem unchangedBut_setSt (v : Byte) : UnchangedBut [.sound] s (s.setSt v) := by
  intro p hp; cases p <;> simp_all [Keeps]

theorem unchangedBut_setDisp (d : Display) : UnchangedBut [.display] s (s.setDisp d) := by
  intro p hp; cases p <;> simp_all [Keeps]

theorem unchangedBut_setStatus (v : Status) : UnchangedBut [.status] s (s.setStatus v) := by
  intro p hp; cases p <;> simp_all [Keeps]

theorem unchangedBut_setKeyBit (k : Key) (b : Bool) : UnchangedBut [.keys] s (s.setKeyBit k b) := by
  intro p hp; cases p <;> simp_all [Keeps]

theorem unchangedBut_setV (x : Reg) (b : Byte) : UnchangedBut [.regs] s (s.setV x b) := by
  intro p hp; cases p <;> simp_all [Keeps]

theorem regsUnchangedBut_setV (x : Reg) (b : Byte) : RegsUnchangedBut [x] s (s.setV x b) := by
  intro r hr; simp_all

theorem unchangedBut_writeFlagThenResult (f : Bool) (x : Reg) (b : Byte) :
    UnchangedBut [.regs] s (s.writeFlagThenResult f x b) := by
  intro p hp; cases p <;> simp_all [Keeps, State.writeFlagThenResult]

theorem regsUnchangedBut_writeFlagThenResult (f : Bool) (x : Reg) (b : Byte) :
    RegsUnchangedBut [x, 15] s (s.writeFlagThenResult f x b) := by
  intro r hr
  rw [State.getV_writeFlagThenResult]
  simp_all [vf]

theorem unchangedBut_loadRegsUpTo (x : Reg) (bs : List Byte) : UnchangedBut [.regs] s (s.loadRegsUpTo x bs) := by
  intro p hp
  cases p <;> simp_all [Keeps]
  intro k
  rfl

theorem unchangedBut_skipIf (c : Bool) : UnchangedBut [.pc] s (s.skipIf c) := by
  cases c
  · intro p hp; cases p <;> simp_all [Keeps, State.skipIf]
  · exact unchangedBut_setPc s _

theorem unchangedBut_takeException (kind : FaultKind) (addr : Word) (word : Option Word) (bad : Option Nat) :
    UnchangedBut [.pc, .status] s (takeException kind addr word bad s) := by
  intro p hp; cases p <;> simp_all [Keeps, takeException]

/-- Changing one part and then another leaves every other part unchanged. -/
theorem UnchangedBut.trans {s t u : State} {a b : List Part} (h : UnchangedBut a s t) (h' : UnchangedBut b t u) :
    UnchangedBut (a ++ b) s u := by
  intro p hp
  simp only [List.mem_append, not_or] at hp
  have h1 := h p hp.1
  have h2 := h' p hp.2
  cases p <;> simp only [Keeps] at * <;> first | exact h2.trans h1 | (intro q; exact (h2 q).trans (h1 q)) | (intro q r; exact (h2 q r).trans (h1 q r))

end Sys2Proof.Machine
end

