-- ==== Sys2Proof/Laws/PerInstr.lean ====
section
/-! SUPPORT. What is said of every instruction as syntax, one lemma per constructor. Family `EncodesToItsRow`: the
encoding of an instruction has the fixed bits of its row of opcode_table.json. -/

namespace Sys2Proof

/-- `mask` and `match` of the instruction's row, transcribed from opcode_table.json. -/
def Laws.EncodesToItsRow.row : Instr → Word × Word
  | .cls => (0xFFFF#16, 0x00E0#16)
  | .ret => (0xFFFF#16, 0x00EE#16)
  | .jp _ => (0xF000#16, 0x1000#16)
  | .call _ => (0xF000#16, 0x2000#16)
  | .seImm _ _ => (0xF000#16, 0x3000#16)
  | .sneImm _ _ => (0xF000#16, 0x4000#16)
  | .seReg _ _ => (0xF00F#16, 0x5000#16)
  | .ldImm _ _ => (0xF000#16, 0x6000#16)
  | .addImm _ _ => (0xF000#16, 0x7000#16)
  | .ldReg _ _ => (0xF00F#16, 0x8000#16)
  | .orReg _ _ => (0xF00F#16, 0x8001#16)
  | .andReg _ _ => (0xF00F#16, 0x8002#16)
  | .xorReg _ _ => (0xF00F#16, 0x8003#16)
  | .addReg _ _ => (0xF00F#16, 0x8004#16)
  | .subReg _ _ => (0xF00F#16, 0x8005#16)
  | .shr _ _ => (0xF00F#16, 0x8006#16)
  | .subnReg _ _ => (0xF00F#16, 0x8007#16)
  | .shl _ _ => (0xF00F#16, 0x800E#16)
  | .sneReg _ _ => (0xF00F#16, 0x9000#16)
  | .ldI _ => (0xF000#16, 0xA000#16)
  | .jpV0 _ => (0xF000#16, 0xB000#16)
  | .rnd _ _ => (0xF000#16, 0xC000#16)
  | .drw _ _ _ => (0xF000#16, 0xD000#16)
  | .skp _ => (0xF0FF#16, 0xE09E#16)
  | .sknp _ => (0xF0FF#16, 0xE0A1#16)
  | .ldVxDt _ => (0xF0FF#16, 0xF007#16)
  | .ldVxK _ => (0xF0FF#16, 0xF00A#16)
  | .ldDtVx _ => (0xF0FF#16, 0xF015#16)
  | .ldStVx _ => (0xF0FF#16, 0xF018#16)
  | .addIVx _ => (0xF0FF#16, 0xF01E#16)
  | .ldFVx _ => (0xF0FF#16, 0xF029#16)
  | .ldBVx _ => (0xF0FF#16, 0xF033#16)
  | .ldMemVx _ => (0xF0FF#16, 0xF055#16)
  | .ldVxMem _ => (0xF0FF#16, 0xF065#16)

/-- The bits of the word under the row's mask are the row's match. -/
def Laws.EncodesToItsRow.Statement (i : Instr) : Prop :=
  encode i &&& (Laws.EncodesToItsRow.row i).1 = (Laws.EncodesToItsRow.row i).2

/-- The bits of a concatenation under a mask, part by part. -/
theorem and_concat {m n : Nat} (x x' : BitVec m) (y y' : BitVec n) :
    (x ++ y) &&& (x' ++ y') = (x &&& x') ++ (y &&& y') := by
  apply BitVec.eq_of_getLsbD_eq
  intro i _
  simp only [BitVec.getLsbD_and, BitVec.getLsbD_append]
  split <;> rfl

/-- A word under a mask that selects whole digits, digit by digit. -/
theorem and_digits (a b c d a' b' c' d' : BitVec 4) :
    (a ++ b ++ c ++ d : Word) &&& (a' ++ b' ++ c' ++ d' : Word) =
      (a &&& a') ++ (b &&& b') ++ (c &&& c') ++ (d &&& d') := by
  show (a ++ b ++ c ++ d) &&& (a' ++ b' ++ c' ++ d') = (a &&& a') ++ (b &&& b') ++ (c &&& c') ++ (d &&& d')
  simp only [and_concat]

/-- A word under a mask that selects digits and a byte. -/
theorem and_digitsByte (a b a' b' : BitVec 4) (c c' : Byte) :
    (a ++ b ++ c : Word) &&& (a' ++ b' ++ c' : Word) = (a &&& a') ++ (b &&& b') ++ (c &&& c') := by
  show (a ++ b ++ c) &&& (a' ++ b' ++ c') = (a &&& a') ++ (b &&& b') ++ (c &&& c')
  simp only [and_concat]

/-- A word under a mask that selects the opcode digit. -/
theorem and_digitAddr (a a' : BitVec 4) (c c' : BitVec 12) :
    (a ++ c : Word) &&& (a' ++ c' : Word) = (a &&& a') ++ (c &&& c') :=
  and_concat a a' c c'

theorem Laws.EncodesToItsRow.cls :
    Laws.EncodesToItsRow.Statement (.cls) :=
  rfl

theorem Laws.EncodesToItsRow.ret :
    Laws.EncodesToItsRow.Statement (.ret) :=
  rfl

theorem Laws.EncodesToItsRow.jp (nnn : BitVec 12) :
    Laws.EncodesToItsRow.Statement (.jp nnn) :=
  (and_digitAddr 0x1#4 0xF#4 nnn 0x000#12).trans (by simp; rfl)

theorem Laws.EncodesToItsRow.call (nnn : BitVec 12) :
    Laws.EncodesToItsRow.Statement (.call nnn) :=
  (and_digitAddr 0x2#4 0xF#4 nnn 0x000#12).trans (by simp; rfl)

theorem Laws.EncodesToItsRow.seImm (x : Reg) (nn : Byte) :
    Laws.EncodesToItsRow.Statement (.seImm x nn) :=
  (and_digitsByte 0x3#4 (regBits x) 0xF#4 0x0#4 nn 0x00#8).trans (by simp; rfl)

theorem Laws.EncodesToItsRow.sneImm (x : Reg) (nn : Byte) :
    Laws.EncodesToItsRow.Statement (.sneImm x nn) :=
  (and_digitsByte 0x4#4 (regBits x) 0xF#4 0x0#4 nn 0x00#8).trans (by simp; rfl)

theorem Laws.EncodesToItsRow.seReg (x y : Reg) :
    Laws.EncodesToItsRow.Statement (.seReg x y) :=
  (and_digits 0x5#4 (regBits x) (regBits y) 0x0#4 0xF#4 0x0#4 0x0#4 0xF#4).trans (by simp; rfl)

theorem Laws.EncodesToItsRow.ldImm (x : Reg) (nn : Byte) :
    Laws.EncodesToItsRow.Statement (.ldImm x nn) :=
  (and_digitsByte 0x6#4 (regBits x) 0xF#4 0x0#4 nn 0x00#8).trans (by simp; rfl)

theorem Laws.EncodesToItsRow.addImm (x : Reg) (nn : Byte) :
    Laws.EncodesToItsRow.Statement (.addImm x nn) :=
  (and_digitsByte 0x7#4 (regBits x) 0xF#4 0x0#4 nn 0x00#8).trans (by simp; rfl)

theorem Laws.EncodesToItsRow.ldReg (x y : Reg) :
    Laws.EncodesToItsRow.Statement (.ldReg x y) :=
  (and_digits 0x8#4 (regBits x) (regBits y) 0x0#4 0xF#4 0x0#4 0x0#4 0xF#4).trans (by simp; rfl)

theorem Laws.EncodesToItsRow.orReg (x y : Reg) :
    Laws.EncodesToItsRow.Statement (.orReg x y) :=
  (and_digits 0x8#4 (regBits x) (regBits y) 0x1#4 0xF#4 0x0#4 0x0#4 0xF#4).trans (by simp; rfl)

theorem Laws.EncodesToItsRow.andReg (x y : Reg) :
    Laws.EncodesToItsRow.Statement (.andReg x y) :=
  (and_digits 0x8#4 (regBits x) (regBits y) 0x2#4 0xF#4 0x0#4 0x0#4 0xF#4).trans (by simp; rfl)

theorem Laws.EncodesToItsRow.xorReg (x y : Reg) :
    Laws.EncodesToItsRow.Statement (.xorReg x y) :=
  (and_digits 0x8#4 (regBits x) (regBits y) 0x3#4 0xF#4 0x0#4 0x0#4 0xF#4).trans (by simp; rfl)

theorem Laws.EncodesToItsRow.addReg (x y : Reg) :
    Laws.EncodesToItsRow.Statement (.addReg x y) :=
  (and_digits 0x8#4 (regBits x) (regBits y) 0x4#4 0xF#4 0x0#4 0x0#4 0xF#4).trans (by simp; rfl)

theorem Laws.EncodesToItsRow.subReg (x y : Reg) :
    Laws.EncodesToItsRow.Statement (.subReg x y) :=
  (and_digits 0x8#4 (regBits x) (regBits y) 0x5#4 0xF#4 0x0#4 0x0#4 0xF#4).trans (by simp; rfl)

theorem Laws.EncodesToItsRow.shr (x y : Reg) :
    Laws.EncodesToItsRow.Statement (.shr x y) :=
  (and_digits 0x8#4 (regBits x) (regBits y) 0x6#4 0xF#4 0x0#4 0x0#4 0xF#4).trans (by simp; rfl)

theorem Laws.EncodesToItsRow.subnReg (x y : Reg) :
    Laws.EncodesToItsRow.Statement (.subnReg x y) :=
  (and_digits 0x8#4 (regBits x) (regBits y) 0x7#4 0xF#4 0x0#4 0x0#4 0xF#4).trans (by simp; rfl)

theorem Laws.EncodesToItsRow.shl (x y : Reg) :
    Laws.EncodesToItsRow.Statement (.shl x y) :=
  (and_digits 0x8#4 (regBits x) (regBits y) 0xE#4 0xF#4 0x0#4 0x0#4 0xF#4).trans (by simp; rfl)

theorem Laws.EncodesToItsRow.sneReg (x y : Reg) :
    Laws.EncodesToItsRow.Statement (.sneReg x y) :=
  (and_digits 0x9#4 (regBits x) (regBits y) 0x0#4 0xF#4 0x0#4 0x0#4 0xF#4).trans (by simp; rfl)

theorem Laws.EncodesToItsRow.ldI (nnn : BitVec 12) :
    Laws.EncodesToItsRow.Statement (.ldI nnn) :=
  (and_digitAddr 0xA#4 0xF#4 nnn 0x000#12).trans (by simp; rfl)

theorem Laws.EncodesToItsRow.jpV0 (nnn : BitVec 12) :
    Laws.EncodesToItsRow.Statement (.jpV0 nnn) :=
  (and_digitAddr 0xB#4 0xF#4 nnn 0x000#12).trans (by simp; rfl)

theorem Laws.EncodesToItsRow.rnd (x : Reg) (nn : Byte) :
    Laws.EncodesToItsRow.Statement (.rnd x nn) :=
  (and_digitsByte 0xC#4 (regBits x) 0xF#4 0x0#4 nn 0x00#8).trans (by simp; rfl)

theorem Laws.EncodesToItsRow.drw (x y : Reg) (n : Nat) :
    Laws.EncodesToItsRow.Statement (.drw x y n) :=
  (and_digits 0xD#4 (regBits x) (regBits y) (BitVec.ofNat 4 n) 0xF#4 0x0#4 0x0#4 0x0#4).trans (by simp; rfl)

theorem Laws.EncodesToItsRow.skp (x : Reg) :
    Laws.EncodesToItsRow.Statement (.skp x) :=
  (and_digitsByte 0xE#4 (regBits x) 0xF#4 0x0#4 0x9E#8 0xFF#8).trans (by simp; rfl)

theorem Laws.EncodesToItsRow.sknp (x : Reg) :
    Laws.EncodesToItsRow.Statement (.sknp x) :=
  (and_digitsByte 0xE#4 (regBits x) 0xF#4 0x0#4 0xA1#8 0xFF#8).trans (by simp; rfl)

theorem Laws.EncodesToItsRow.ldVxDt (x : Reg) :
    Laws.EncodesToItsRow.Statement (.ldVxDt x) :=
  (and_digitsByte 0xF#4 (regBits x) 0xF#4 0x0#4 0x07#8 0xFF#8).trans (by simp; rfl)

theorem Laws.EncodesToItsRow.ldVxK (x : Reg) :
    Laws.EncodesToItsRow.Statement (.ldVxK x) :=
  (and_digitsByte 0xF#4 (regBits x) 0xF#4 0x0#4 0x0A#8 0xFF#8).trans (by simp; rfl)

theorem Laws.EncodesToItsRow.ldDtVx (x : Reg) :
    Laws.EncodesToItsRow.Statement (.ldDtVx x) :=
  (and_digitsByte 0xF#4 (regBits x) 0xF#4 0x0#4 0x15#8 0xFF#8).trans (by simp; rfl)

theorem Laws.EncodesToItsRow.ldStVx (x : Reg) :
    Laws.EncodesToItsRow.Statement (.ldStVx x) :=
  (and_digitsByte 0xF#4 (regBits x) 0xF#4 0x0#4 0x18#8 0xFF#8).trans (by simp; rfl)

theorem Laws.EncodesToItsRow.addIVx (x : Reg) :
    Laws.EncodesToItsRow.Statement (.addIVx x) :=
  (and_digitsByte 0xF#4 (regBits x) 0xF#4 0x0#4 0x1E#8 0xFF#8).trans (by simp; rfl)

theorem Laws.EncodesToItsRow.ldFVx (x : Reg) :
    Laws.EncodesToItsRow.Statement (.ldFVx x) :=
  (and_digitsByte 0xF#4 (regBits x) 0xF#4 0x0#4 0x29#8 0xFF#8).trans (by simp; rfl)

theorem Laws.EncodesToItsRow.ldBVx (x : Reg) :
    Laws.EncodesToItsRow.Statement (.ldBVx x) :=
  (and_digitsByte 0xF#4 (regBits x) 0xF#4 0x0#4 0x33#8 0xFF#8).trans (by simp; rfl)

theorem Laws.EncodesToItsRow.ldMemVx (x : Reg) :
    Laws.EncodesToItsRow.Statement (.ldMemVx x) :=
  (and_digitsByte 0xF#4 (regBits x) 0xF#4 0x0#4 0x55#8 0xFF#8).trans (by simp; rfl)

theorem Laws.EncodesToItsRow.ldVxMem (x : Reg) :
    Laws.EncodesToItsRow.Statement (.ldVxMem x) :=
  (and_digitsByte 0xF#4 (regBits x) 0xF#4 0x0#4 0x65#8 0xFF#8).trans (by simp; rfl)

end Sys2Proof
end

