-- ==== Sys2Proof/Tests/Slice0.lean ====
section
/-! SUPPORT. The author's own tests: ill-formed terms refused, decoding of words written out from 30_encoding.md R63,
single steps against the vectors of 95_test_vectors.md (each test names its vector), and for every obligation with
hypotheses a witness that meets them. -/

namespace Sys2Proof.Tests

open Sys2Proof.Machine

/-! ## Helpers -/

/-- The start state of 95_test_vectors.md with an instruction word at 0x200. -/
def word (w : Nat) : State := State.reset.withFetchWord 16 w

/-- A byte of memory set, for a setup. -/
def poke (s : State) (a : Nat) (b : Byte) : State := s.setMem (s.mem.write a b)

/-- A cell of the display set, for a setup. -/
def light (s : State) (r : Fin 32) (c : Fin 64) : State := s.setDisp (s.disp.setCell r c true)

/-- What `look` sees in the state after one step; none if the step answers no next state. -/
def after {α : Type} (s : State) (look : State → α) : Option α :=
  match step s with
  | .next t => some (look t)
  | .fault _ => none
  | .refused _ => none

/-- The number of lit cells. -/
def lit (d : Display) : Nat := (d.toList.map fun row => row.toList.count true).sum

/-- The record of a fault of the word `w` at 0x200. -/
def faultAt200 (kind : FaultKind) (w : Word) (bad : Option Nat) : Status :=
  .halted { kind := kind, addr := 0x200, word := some w, bad := bad }

/-- The status and `pc` after a step. -/
def end_ (t : State) : Status × Word := (t.status, t.pc)

/-- The instruction a word decodes to. -/
def dec (w : Word) : Option Instr :=
  match decodeWord w with
  | .ok i => some i
  | .error _ => none

/-! ## Well-formedness -/

theorem test_illFormed_rowCount16 : (Instr.drw 0 1 16).wellFormed = false := by decide
theorem test_wellFormed_rowCount15 : (Instr.drw 0 1 15).wellFormed = true := by decide

/-! ## Decoding, by the patterns of R63 and the fields of R57 -/

/-- One word of each format of R59, bit by bit: 00EE; 1234; 6A42; 8F14; D01F; F265. -/
theorem test_decode_bits :
    dec 0b0000000011101110#16 = some .ret ∧ dec 0b0001001000110100#16 = some (.jp 0x234#12) ∧
    dec 0b0110101001000010#16 = some (.ldImm 10 0x42#8) ∧ dec 0b1000111100010100#16 = some (.addReg 15 1) ∧
    dec 0b1101000000011111#16 = some (.drw 0 1 15) ∧ dec 0b1111001001100101#16 = some (.ldVxMem 2) := by decide

theorem test_decode_control :
    dec 0x00EE#16 = some .ret ∧ dec 0x1234#16 = some (.jp 0x234#12) ∧ dec 0x2300#16 = some (.call 0x300#12) ∧
    dec 0x31A0#16 = some (.seImm 1 0xA0#8) ∧ dec 0x4206#16 = some (.sneImm 2 6#8) ∧
    dec 0x5010#16 = some (.seReg 0 1) ∧ dec 0x9120#16 = some (.sneReg 1 2) ∧
    dec 0xBFFF#16 = some (.jpV0 0xFFF#12) := by decide

theorem test_decode_alu :
    dec 0x6A42#16 = some (.ldImm 10 0x42#8) ∧ dec 0x7105#16 = some (.addImm 1 5#8) ∧
    dec 0x8120#16 = some (.ldReg 1 2) ∧ dec 0x8011#16 = some (.orReg 0 1) ∧ dec 0x8012#16 = some (.andReg 0 1) ∧
    dec 0x8013#16 = some (.xorReg 0 1) ∧ dec 0x80F4#16 = some (.addReg 0 15) ∧ dec 0x8F15#16 = some (.subReg 15 1) ∧
    dec 0x8346#16 = some (.shr 3 4) ∧ dec 0x8017#16 = some (.subnReg 0 1) ∧ dec 0x823E#16 = some (.shl 2 3) ∧
    dec 0xC30F#16 = some (.rnd 3 0x0F#8) := by decide

theorem test_decode_display_timers_input :
    dec 0x00E0#16 = some .cls ∧ dec 0xDF13#16 = some (.drw 15 1 3) ∧ dec 0xE59E#16 = some (.skp 5) ∧
    dec 0xE5A1#16 = some (.sknp 5) ∧ dec 0xF307#16 = some (.ldVxDt 3) ∧ dec 0xF30A#16 = some (.ldVxK 3) ∧
    dec 0xF015#16 = some (.ldDtVx 0) ∧ dec 0xF418#16 = some (.ldStVx 4) := by decide

theorem test_decode_index_memory :
    dec 0xA300#16 = some (.ldI 0x300#12) ∧ dec 0xF21E#16 = some (.addIVx 2) ∧ dec 0xF129#16 = some (.ldFVx 1) ∧
    dec 0xF033#16 = some (.ldBVx 0) ∧ dec 0xF255#16 = some (.ldMemVx 2) ∧ dec 0xF265#16 = some (.ldVxMem 2) := by
  decide

/-- The illegal words of 95_test_vectors.md 2.7, each rejected by its group. -/
theorem test_decode_illegal :
    (dec 0x0000#16 = none ∧ dec 0x0123#16 = none ∧ dec 0x00E1#16 = none ∧ dec 0x00EF#16 = none) ∧
    (dec 0x5011#16 = none ∧ dec 0x8008#16 = none ∧ dec 0x800F#16 = none ∧ dec 0x9011#16 = none) ∧
    (dec 0xE09F#16 = none ∧ dec 0xE0A2#16 = none ∧ dec 0xF000#16 = none ∧ dec 0xF016#16 = none ∧
      dec 0xF0FF#16 = none) := by decide

/-- The first byte of a word is its high byte (R37), and a lone byte is no instruction. -/
theorem test_decode_bytes :
    (match decode [0x80, 0x14, 0xAB] with | .ok p => some p | .error _ => none) = some (.addReg 0 1, [0xAB]) ∧
    (match decode [0x80] with | .ok p => some p | .error _ => none) = none := by decide

theorem test_decodeTableWord :
    decodeTableWord 16 0x8014 = some (.addReg 0 1) ∧ decodeTableWord 16 0xF065 = some (.ldVxMem 0) ∧
    decodeTableWord 16 0x5001 = none := by decide

/-! ## Loads, arithmetic, random (vectors 2.1) -/

/-- ALU1. -/
theorem test_ldImm : after (word 0x6A42) (fun t => (t.getV 10, t.pc)) = some (0x42, 0x202) := by decide
/-- ALU2. -/
theorem test_addImm_wraps :
    after (((word 0x7105).setV 1 0xFE).setV 15 0x77) (fun t => (t.getV 1, t.getV 15)) = some (0x03, 0x77) := by decide
/-- ALU3. -/
theorem test_addImm_vf : after ((word 0x7FFF).setV 15 0x01) (fun t => t.getV 15) = some 0x00 := by decide
/-- ALU4. -/
theorem test_ldReg :
    after ((word 0x8120).setV 2 0x7A) (fun t => (t.getV 1, t.getV 2)) = some (0x7A, 0x7A) := by decide
/-- ALU5. -/
theorem test_orReg :
    after ((((word 0x8011).setV 0 0xF0).setV 1 0x0F).setV 15 0x55) (fun t => (t.getV 0, t.getV 15)) =
      some (0xFF, 0x55) := by decide
/-- ALU6. -/
theorem test_andReg : after (((word 0x8012).setV 0 0xF0).setV 1 0x3C) (fun t => t.getV 0) = some 0x30 := by decide
/-- ALU7. -/
theorem test_xorReg : after (((word 0x8013).setV 0 0xFF).setV 1 0x0F) (fun t => t.getV 0) = some 0xF0 := by decide
/-- ALU11. -/
theorem test_addReg_carry :
    after (((word 0x8014).setV 0 0x80).setV 1 0x80) (fun t => (t.getV 0, t.getV 15)) = some (0x00, 0x01) := by decide
/-- ALU16. -/
theorem test_addReg_vf : after (((word 0x8F14).setV 15 0xF0).setV 1 0x20) (fun t => t.getV 15) = some 0x10 := by
  decide
/-- ALU19. -/
theorem test_subReg_borrow :
    after (((word 0x8015).setV 0 0x03).setV 1 0x05) (fun t => (t.getV 0, t.getV 15)) = some (0xFE, 0x00) := by decide
/-- ALU20. -/
theorem test_subReg_equal :
    after (((word 0x8015).setV 0 0x07).setV 1 0x07) (fun t => (t.getV 0, t.getV 15)) = some (0x00, 0x01) := by decide
/-- ALU24. -/
theorem test_subnReg :
    after (((word 0x8017).setV 0 0x03).setV 1 0x05) (fun t => (t.getV 0, t.getV 15)) = some (0x02, 0x01) := by decide
/-- ALU27. -/
theorem test_subnReg_vf : after (((word 0x8F17).setV 15 0x01).setV 1 0x10) (fun t => t.getV 15) = some 0x0F := by
  decide
/-- ALU31. -/
theorem test_shr_ignores_y :
    after (((word 0x8346).setV 3 0x04).setV 4 0xFF) (fun t => (t.getV 3, t.getV 4, t.getV 15)) =
      some (0x02, 0xFF, 0x00) := by decide
/-- ALU30. -/
theorem test_shr_bit0 : after ((word 0x8306).setV 3 0x01) (fun t => (t.getV 3, t.getV 15)) = some (0x00, 0x01) := by
  decide
/-- ALU34. -/
theorem test_shl_bit7 : after ((word 0x822E).setV 2 0x81) (fun t => (t.getV 2, t.getV 15)) = some (0x02, 0x01) := by
  decide
/-- ALU38. -/
theorem test_shl_vf : after ((word 0x8F0E).setV 15 0x81) (fun t => t.getV 15) = some 0x02 := by decide
/-- ALU40: with `nn = 0` the result is 0 whatever the draw, and one draw is counted. -/
theorem test_rnd_masked : after ((word 0xC000).setV 0 0x12) (fun t => (t.getV 0, t.draws)) = some (0, 1) := by
  show some (Config.randomByte 0 &&& 0#8, 1) = _
  rw [BitVec.and_zero]
  rfl

/-! ## Control transfer (vectors 2.2) -/

/-- CT1. -/
theorem test_jp : after (word 0x1234) end_ = some (.running, 0x234) := by decide
/-- CT4. -/
theorem test_call_16th :
    after { word 0x2300 with sp := 15 } (fun t => (t.pc, t.sp.val, t.stack[15])) = some (0x300, 16, 0x202) := by decide
/-- CT5. -/
theorem test_call_overflow :
    after { word 0x2300 with sp := 16 } (fun t => (end_ t, t.sp.val)) =
      some ((faultAt200 .stackOverflow 0x2300 none, 0x200), 16) := by decide
/-- CT6. -/
theorem test_ret :
    after { word 0x00EE with sp := 1, stack := (word 0).stack.set 0 0x202 }
      (fun t => (t.pc, t.sp.val, t.stack[0])) = some (0x202, 0, 0x202) := by decide
/-- CT7. -/
theorem test_ret_underflow :
    after (word 0x00EE) end_ = some (faultAt200 .stackUnderflow 0x00EE none, 0x200) := by decide
/-- CT9. -/
theorem test_jpV0 : after ((word 0xBFFF).setV 0 0xFF) end_ = some (.running, 0x10FE) := by decide
/-- CT10, its second step. -/
theorem test_fetch_past_memory :
    after ((word 0xBFFF).setPc 0x10FE) end_ =
      some (.halted { kind := .outOfBounds, addr := 0x10FE, word := none, bad := some 0x10FE }, 0x10FE) := by decide
/-- CT22. -/
theorem test_fetch_second_byte :
    after ((word 0).setPc 0xFFF) end_ =
      some (.halted { kind := .outOfBounds, addr := 0xFFF, word := none, bad := some 0x1000 }, 0xFFF) := by decide
/-- CT23. -/
theorem test_fetch_last_word : after ((poke (word 0) 0xFFE 0x12).setPc 0xFFE) end_ = some (.running, 0x200) := by
  decide
/-- CT21. -/
theorem test_seImm_taken :
    after (((poke (poke (word 0) 0xFFE 0x30) 0xFFF 0x05).setPc 0xFFE).setV 0 0x05) end_ =
      some (.running, 0x1000 + 2) := by decide
/-- CT12, at 0x200. -/
theorem test_seImm_not_taken : after ((word 0x3100).setV 1 0x01) end_ = some (.running, 0x202) := by decide
/-- CT13. -/
theorem test_sneImm_taken : after ((word 0x4206).setV 2 0x05) end_ = some (.running, 0x204) := by decide
/-- CT14. -/
theorem test_sneImm_not_taken : after ((word 0x4206).setV 2 0x06) end_ = some (.running, 0x202) := by decide
/-- CT15. -/
theorem test_seReg_taken : after (((word 0x5010).setV 0 0x33).setV 1 0x33) end_ = some (.running, 0x204) := by decide
/-- CT16. -/
theorem test_seReg_not_taken : after (((word 0x5010).setV 0 0x33).setV 1 0x34) end_ = some (.running, 0x202) := by
  decide
/-- CT18. -/
theorem test_sneReg_taken : after (((word 0x9010).setV 0 0x01).setV 1 0x02) end_ = some (.running, 0x204) := by decide
/-- CT19. -/
theorem test_sneReg_not_taken : after (((word 0x9010).setV 0 0x01).setV 1 0x01) end_ = some (.running, 0x202) := by
  decide
/-- CT17. -/
theorem test_decodeError : after (word 0x5011) end_ = some (faultAt200 .decodeError 0x5011 none, 0x200) := by decide

/-! ## Display (vectors 2.3) -/

/-- DSP1. -/
theorem test_cls : after (light (light (word 0x00E0) 0 0) 31 63) (fun t => lit t.disp) = some 0 := by decide
/-- DSP4: the bottom row wraps to the top. -/
theorem test_drw_wraps :
    after ((poke (poke (word 0xD012) 0x300 0x80) 0x301 0x80).setI 0x300 |>.setV 1 0x1F)
      (fun t => (t.disp.cell 31 0, t.disp.cell 0 0, lit t.disp, t.getV 15)) = some (true, true, 2, 0) := by decide
/-- DSP7. -/
theorem test_drw_outOfBounds :
    after (((word 0xD013).setI 0xFFE).setV 15 0x77) (fun t => (end_ t, t.getV 15, lit t.disp)) =
      some ((faultAt200 .outOfBounds 0xD013 (some 0x1000), 0x200), 0x77, 0) := by decide

/-! ## Timers and keys (vectors 2.4, 2.5) -/

/-- TM2. -/
theorem test_ldVxDt : after ((word 0xF307).setDt 0x2A) (fun t => (t.getV 3, t.dt)) = some (0x2A, 0x2A) := by decide
/-- TM1. -/
theorem test_ldDtVx : after ((word 0xF015).setV 0 0x05) (fun t => (t.dt, t.st)) = some (0x05, 0x00) := by decide
/-- TM3. -/
theorem test_ldStVx : after ((word 0xF418).setV 4 0x10) (fun t => (t.st, t.dt, soundOn t)) = some (0x10, 0x00, true) := by
  decide
/-- KY1. -/
theorem test_skp : after (((word 0xE59E).setV 5 0x07).setKeyBit 7 true) end_ = some (.running, 0x204) := by decide
/-- KY5. -/
theorem test_skp_outOfBounds :
    after ((word 0xE59E).setV 5 0x10) end_ = some (faultAt200 .outOfBounds 0xE59E (some 0x10), 0x200) := by decide
/-- KY3. -/
theorem test_sknp : after ((word 0xE5A1).setV 5 0x07) end_ = some (.running, 0x204) := by decide
/-- KY4. -/
theorem test_sknp_pressed : after (((word 0xE5A1).setV 5 0x07).setKeyBit 7 true) end_ = some (.running, 0x202) := by
  decide
/-- KY7. -/
theorem test_ldVxK :
    after (word 0xF30A) (fun t => (end_ t, t.getV 3, outcomeOf t)) =
      some ((.waitingKey 3, 0x202), 0x00, .waitingForKey) := by decide
/-- KY9. -/
theorem test_setKey_ends_wait :
    (setKey 7 true ((word 0).setStatus (.waitingKey 3))).map (fun t => (t.keyDown 7, t.getV 3, t.status)) =
      some (true, 0x07, .running) := by decide
/-- KY10. -/
theorem test_setKey_held :
    (setKey 7 true (((word 0).setStatus (.waitingKey 3)).setKeyBit 7 true)).map (fun t => (t.getV 3, t.status)) =
      some (0x00, .waitingKey 3) := by decide
/-- TM4, TM7. -/
theorem test_tick :
    (tickTimers (((word 0).setDt 0x05).setStatus (.waitingKey 3))).dt = 0x04 ∧
    (tickTimers ((word 0).setDt 0x05)).st = 0x00 := by decide

/-! ## Index register and memory (vectors 2.6) -/

/-- IX1. -/
theorem test_ldI : after (word 0xA300) (fun t => t.I) = some 0x0300 := by decide
/-- IX3. -/
theorem test_addIVx :
    after (((word 0xF21E).setI 0xFFFF).setV 2 0x01) (fun t => (t.I, t.getV 15)) = some (0x0000, 0x00) := by decide
/-- IX5. -/
theorem test_ldFVx : after ((word 0xF129).setV 1 0x0A) (fun t => t.I) = some 0x0032 := by decide
/-- IX7. -/
theorem test_ldFVx_outOfBounds :
    after ((word 0xF129).setV 1 0x10) (fun t => (end_ t, t.I)) =
      some ((faultAt200 .outOfBounds 0xF129 (some 0x10), 0x200), 0x0000) := by decide
/-- IX11. -/
theorem test_ldBVx :
    after (((word 0xF033).setI 0xFFD).setV 0 0x7B) (fun t => t.mem.readBytes 0xFFD 3) =
      some [0x01, 0x02, 0x03] := by decide
/-- IX21. -/
theorem test_ldBVx_outOfBounds :
    after ((word 0xF033).setI 0xFFFF) end_ = some (faultAt200 .outOfBounds 0xF033 (some 0xFFFF), 0x200) := by decide
/-- IX15. -/
theorem test_ldMemVx :
    after ((((word 0xF055).setI 0x300).setV 0 0x09).setV 1 0x08) (fun t => t.mem.readBytes 0x300 2) =
      some [0x09, 0x00] := by decide
/-- IX17. -/
theorem test_ldMemVx_outOfBounds :
    after ((word 0xFF55).setI 0xFF1) end_ = some (faultAt200 .outOfBounds 0xFF55 (some 0x1000), 0x200) := by decide
/-- IX18. -/
theorem test_ldVxMem :
    after ((poke (poke (word 0xF265) 0x301 0x01) 0x302 0x05).setI 0x300 |>.setV 3 0x99)
      (fun t => (t.getV 0, t.getV 1, t.getV 2, t.getV 3)) = some (0x00, 0x01, 0x05, 0x99) := by decide
/-- IX20. -/
theorem test_ldVxMem_vf :
    after ((poke (word 0xFF65) 0x30F 0xAB).setI 0x300) (fun t => t.getV 15) = some 0xAB := by decide

/-! ## Witnesses: states and operands that meet every hypothesis of an obligation, clause by clause -/

/-- A state at `pc = a`, the word `hi:lo` there. -/
def wordAt (a : Nat) (hi lo : Byte) : State := (poke (poke (word 0) a hi) (a + 1) lo).setPc (BitVec.ofNat 16 a)

/-- A state waiting for a key, for VF. -/
def waiting : State := (word 0).setStatus (.waitingKey 15)

/-- The fault that a step before any load raises (70_reset_and_hazards.md R140). -/
def info200 : FaultInfo := { kind := .decodeError, addr := 0x200, word := some 0x0000, bad := none }

/-- The state in which that fault has stopped the engine. -/
def halted200 : State := State.reset.setStatus (.halted info200)

theorem witness_ResetLeavesTheStatedValues : (load [0x60, 0x05] (waiting.setKeyBit 15 true)).isSome = true := by decide
theorem witness_DecodingAnEncodedInstructionGivesItBack : (Instr.drw 15 15 15).WellFormed := by decide
theorem witness_ADecodedWordIsTheEncodingOfItsInstruction : decodeWord 0xDFFF#16 = .ok (.drw 15 15 15) := by rfl

theorem witness_IllegalWordsRaiseDecodeError :
    (wordAt 4094 0xF0 0x66).status = .running ∧ (wordAt 4094 0xF0 0x66).pc.toNat + 1 ≤ 4095 ∧
      IllegalWord (wordAtPc (wordAt 4094 0xF0 0x66)) := by
  unfold IllegalWord
  decide

theorem witness_StepExecutesTheDecodedInstruction :
    (wordAt 4094 0xD0 0x1F).status = .running ∧ (wordAt 4094 0xD0 0x1F).pc.toNat + 1 ≤ 4095 ∧
      decodeWord (wordAtPc (wordAt 4094 0xD0 0x1F)) = .ok (.drw 0 1 15) := ⟨rfl, by decide, rfl⟩

theorem witness_FetchPastTheEndOfMemoryFaults_whole : ((word 0).setPc 4094).pc.toNat + 1 ≤ 4095 := by decide
theorem witness_FetchPastTheEndOfMemoryFaults_second :
    ((word 0).setPc 4095).status = .running ∧ ((word 0).setPc 4095).pc.toNat + 1 > 4095 := by decide
theorem witness_FetchPastTheEndOfMemoryFaults_first :
    ((word 0).setPc 0xFFFF).status = .running ∧ ((word 0).setPc 0xFFFF).pc.toNat + 1 > 4095 := by decide

theorem witness_PcAfterEachInstruction_fault :
    (word 0x00EE).status = .running ∧
      faultOf (word 0x00EE) = some { kind := .stackUnderflow, addr := 0x200, word := some 0x00EE, bad := none } := by
  decide
theorem witness_PcAfterEachInstruction_next :
    (word 0xFF0A).status = .running ∧ faultOf (word 0xFF0A) = none ∧
      decodeWord (wordAtPc (word 0xFF0A)) = .ok (.ldVxK 15) ∧ Instr.ldVxK 15 = .ldVxK (15 : Reg) :=
  ⟨rfl, by decide, rfl, rfl⟩

/-- For the flag clause of `AddSetsVfToTheCarry`, `SubtractSetsVfToNoBorrow`, `ReverseSubtractSetsVfToNoBorrow`,
`ShiftRightMovesBit0ToVf` and `ShiftLeftMovesBit7ToVf`. -/
theorem witness_destinationIsNotVf : (14 : Reg) ≠ 15 := by decide

theorem witness_CallPushesOrOverflows_push : ({ word 0 with sp := 15 } : State).sp.val < 16 := by decide
theorem witness_CallPushesOrOverflows_full : ({ word 0 with sp := 16 } : State).sp.val = 16 := by decide

theorem witness_ReturnPopsOrUnderflows_pop_full :
    ({ word 0 with sp := 16 } : State).sp.val = (15 : Fin 16).val + 1 := by decide
theorem witness_ReturnPopsOrUnderflows_pop_one :
    ({ word 0 with sp := 1 } : State).sp.val = (0 : Fin 16).val + 1 := by decide
theorem witness_ReturnPopsOrUnderflows_empty : (word 0).sp.val = 0 := by decide

theorem witness_CallThenReturnRestoresPc :
    ∃ s t u : State, s.sp.val < 16 ∧ exec (.call 0x300) s = .next t ∧ u.sp = t.sp ∧
      ∀ k : Fin 16, u.stack[k] = t.stack[k] :=
  ⟨{ word 0 with sp := 15 }, _, (word 0x6005).setPc 0x300 |> fun u =>
    { u with sp := 16, stack := (word 0).stack.set 15 0x200 }, by decide, rfl, rfl, fun _ => rfl⟩

theorem witness_RegisterSkipsCompareTwoRegisters : (1 : BitVec 4) ≠ 0 ∧ (15 : BitVec 4) ≠ 0 := by decide

theorem witness_DrawXorsTheSpriteIntoTheDisplay_last :
    15 ≤ 15 ∧ ((word 0).setI 4081).I.toNat + 15 - 1 ≤ 4095 := by decide
theorem witness_DrawXorsTheSpriteIntoTheDisplay_noRows :
    0 ≤ 15 ∧ ((0 : Nat) = 0 ∨ ((word 0).setI 0xFFFF).I.toNat + 0 - 1 ≤ 4095) := by decide
theorem witness_DrawXorsTheSpriteIntoTheDisplay_past :
    15 ≤ 15 ∧ 0 < 15 ∧ ((word 0).setI 4082).I.toNat + 15 - 1 > 4095 := by decide

theorem witness_DrawingTwiceRestoresTheDisplay :
    ∃ s t u : State, 1 ≤ 15 ∧ ((1 : Nat) = 0 ∨ s.I.toNat + 1 - 1 ≤ 4095) ∧ exec (.drw 0 1 1) s = .next t ∧
      u.disp = t.disp ∧ u.I = s.I ∧ (∀ a, u.mem.read a = s.mem.read a) ∧ u.getV 0 = s.getV 0 ∧ u.getV 1 = s.getV 1 :=
  ⟨word 0, _, { word 0 with disp := (drawSprite 0 0 [0xF0] Display.blank).1 }, by decide, by decide, rfl, by decide, rfl,
    fun _ => rfl, rfl, rfl⟩

theorem witness_KeySkipsReadTheNamedKey_key : (((word 0).setV 5 15).getV 5).toNat = (15 : Key).val := by decide
theorem witness_KeySkipsReadTheNamedKey_past : (((word 0).setV 5 16).getV 5).toNat > 15 := by decide

theorem witness_KeyWaitSuspendsTheEngine : waiting.status = .waitingKey 15 ∧ 15 < 16 := by decide

theorem witness_KeyDownTransitionEndsTheWait_rejected : 16 > 15 := by decide
theorem witness_KeyDownTransitionEndsTheWait_ends :
    (15 : Nat) = (15 : Key).val ∧ waiting.status = .waitingKey 15 ∧ true = true ∧ waiting.keyDown 15 = false := by decide
theorem witness_KeyDownTransitionEndsTheWait_otherKey : (14 : Key) ≠ 15 := by decide
theorem witness_KeyDownTransitionEndsTheWait_notWaiting : ∀ x, (word 0).status ≠ .waitingKey x := by decide
theorem witness_KeyDownTransitionEndsTheWait_held :
    (waiting.setKeyBit 15 true).status = .waitingKey 15 ∧ (waiting.setKeyBit 15 true).keyDown 15 = true := by decide

theorem witness_FontInstructionPointsAtTheGlyph_digit : (((word 0).setV 1 15).getV 1).toNat ≤ 15 := by decide
theorem witness_FontInstructionPointsAtTheGlyph_past : (((word 0).setV 1 16).getV 1).toNat > 15 := by decide

theorem witness_BcdStoresThreeDigitsAtI_last : ((word 0).setI 4093).I.toNat + 2 ≤ 4095 := by decide
theorem witness_BcdStoresThreeDigitsAtI_past : ((word 0).setI 4094).I.toNat + 2 > 4095 := by decide

/-- For `BulkStoreWritesV0ToVxAtI` and `BulkLoadReadsV0ToVxFromI`. -/
theorem witness_bulk_last : ((word 0).setI 4080).I.toNat + (15 : Reg).val ≤ 4095 ∧ (15 : Reg) ≤ 15 := by decide
theorem witness_bulk_past : ((word 0).setI 4081).I.toNat + (15 : Reg).val > 4095 := by decide

theorem witness_AStoredWordIsFetchedNext :
    ∃ s t : State, 1 ≤ (1 : Reg).val ∧ s.I.toNat + (1 : Reg).val ≤ 4095 ∧ exec (.ldMemVx 1) s = .next t ∧
      s.status = .running ∧ decodeWord (s.getV 0 ++ s.getV 1) = .ok (.jp 0x234#12) :=
  ⟨(((word 0).setI 4094).setV 0 0x12).setV 1 0x34, _, by decide, by decide, rfl, rfl, rfl⟩

theorem witness_AStepRaisesExactlyTheListedExceptions : (word 0).status = .running := by decide

theorem witness_AFaultingStepChangesOnlyTheStatus :
    ∃ s t : State, s.status = .running ∧ step s = .next t ∧ t.status = .halted info200 :=
  ⟨State.reset, _, rfl, rfl, by decide⟩

theorem witness_HaltedIsSticky : halted200.status = .halted info200 := by decide

theorem witness_OnlyTheListedRegistersAreWritten :
    ∃ s t : State, exec (.addReg 0 1) s = .next t ∧ t.getV 15 ≠ s.getV 15 :=
  ⟨((word 0).setV 0 0xFF).setV 1 0x01, _, rfl, by decide⟩

theorem witness_OnlyTheTwoStoresChangeMemory :
    ∃ s t : State, exec (.ldBVx 0) s = .next t ∧ t.mem.read 4095 ≠ s.mem.read 4095 :=
  ⟨((word 0).setI 4093).setV 0 7, _, rfl, by decide⟩

theorem witness_EachUnitIsChangedOnlyByItsInstructions_stack :
    ∃ s t : State, exec (.call 0x300) s = .next t ∧ t.sp ≠ s.sp := ⟨word 0, _, rfl, by decide⟩
theorem witness_EachUnitIsChangedOnlyByItsInstructions_display :
    ∃ s t : State, exec .cls s = .next t ∧ t.disp ≠ s.disp := ⟨light (word 0) 0 0, _, rfl, by decide⟩
theorem witness_EachUnitIsChangedOnlyByItsInstructions_delay :
    ∃ s t : State, exec (.ldDtVx 0) s = .next t ∧ t.dt ≠ s.dt := ⟨(word 0).setV 0 5, _, rfl, by decide⟩
theorem witness_EachUnitIsChangedOnlyByItsInstructions_sound :
    ∃ s t : State, exec (.ldStVx 0) s = .next t ∧ t.st ≠ s.st := ⟨(word 0).setV 0 5, _, rfl, by decide⟩
theorem witness_EachUnitIsChangedOnlyByItsInstructions_index :
    ∃ s t : State, exec (.ldI 0x300) s = .next t ∧ t.I ≠ s.I := ⟨word 0, _, rfl, by decide⟩

theorem witness_DeadStackEntriesAreUnobservable :
    ∃ s u : State, SameButDeadEntries s u ∧ s ≠ u :=
  ⟨{ word 0x00EE with sp := 1 }, { word 0x00EE with sp := 1, stack := (word 0).stack.set 1 0x300 },
    ⟨rfl, by decide⟩, by decide⟩

theorem witness_EveryStepKeepsTheInvariant : ∃ s t : State, Inv s ∧ step s = .next t ∧ t ≠ s := by
  refine ⟨word 0x6A42, _, ⟨by decide, fun info h => ?_⟩, rfl, by decide⟩
  cases h

/-- An operation of every kind that a claim constrains: a `restore` of a capture of a state meeting the invariant. -/
theorem witness_EveryHostScheduleKeepsTheInvariant :
    (∀ op ∈ [HostOp.step, .restore (capture (word 0x6A42)).image], op.Proper) ∧ Inv State.reset := by
  have hw : Inv (word 0x6A42) := ⟨by decide, fun info h => by cases h⟩
  refine ⟨fun op hop img c e hc => ?_, by decide, fun info h => by cases h⟩
  simp only [List.mem_cons, List.not_mem_nil, or_false] at hop
  obtain rfl | rfl := hop
  · cases e
  · cases e
    exact ⟨word 0x6A42, hw, (Option.some.inj hc).symm⟩

theorem witness_CanonicalMemoriesThatReadAlikeAreEqual :
    Memory.wf [(0x300, 1), (0xFFF, 2)] ∧ Memory.wf (Memory.write [(0xFFF, 2)] 0x300 1) ∧
      ∀ a, Memory.read [(0x300, 1), (0xFFF, 2)] a = Memory.read (Memory.write [(0xFFF, 2)] 0x300 1) a :=
  ⟨by decide, by decide, fun _ => rfl⟩

theorem witness_LoadResetsAndWritesTheImage_fits :
    0x200 + (List.replicate 3584 (0 : Byte)).length ≤ 4096 ∧ 0 < (List.replicate 3584 (0 : Byte)).length := by
  rw [List.length_replicate]; decide
theorem witness_LoadResetsAndWritesTheImage_tooLong : 0x200 + (List.replicate 3585 (0 : Byte)).length > 4096 := by
  rw [List.length_replicate]; decide
theorem witness_LoadResetsAndWritesTheImage_empty : 0x200 + ([] : List Byte).length ≤ 4096 := by decide

theorem witness_RestoreGivesTheCapturedStateBack_version :
    ({ version := Config.snapshotVersion + 1, content := none } : SnapshotImage).version ≠ Config.snapshotVersion :=
  Nat.succ_ne_self _
theorem witness_RestoreGivesTheCapturedStateBack_truncated :
    ({ version := Config.snapshotVersion, content := none } : SnapshotImage).content = none := rfl
theorem witness_RestoreGivesTheCapturedStateBack_sameKeys :
    ∃ s u : State, s ≠ u ∧ u.key = s.key ∧ u.draws = s.draws := ⟨word 0x6A42, State.reset, by decide, rfl, rfl⟩

theorem witness_TheIdleLoopStepsToItself : (word 0x1200).AtIdleLoop := ⟨rfl, by decide, 0x200, by decide, by decide⟩

end Sys2Proof.Tests
end

section
/-! SUPPORT. The facts the proofs below stand on: a legal word is the encoding of the instruction it decodes to, the
cases of `exec` (it raises the fault of R117, or it completes), and the cases of `step`. -/

namespace Sys2Proof

/-! ## A decoded word is the encoding of its instruction (30_encoding.md R64, R72) -/

/-- A word is put together from its digits, formats `XY` and `XYN` of R59. -/
theorem digits_eq_of_fields {w : Word} {a d : BitVec 4} (ha : (fieldOp w).toNat = a.toNat)
    (hd : (fieldN w).toNat = d.toNat) : a ++ regBits (fieldX w) ++ regBits (fieldY w) ++ d = w := by
  apply BitVec.eq_of_toNat_eq
  rw [toNat_fieldOp] at ha
  rw [toNat_fieldN] at hd
  rw [toNat_digits, toNat_regBits, toNat_regBits, val_fieldX, val_fieldY]
  have := w.isLt
  omega

/-- A word is put together from two digits and a byte, formats `XI` and `XS` of R59. -/
theorem digitsByte_eq_of_fields {w : Word} {a : BitVec 4} {nn : Byte} (ha : (fieldOp w).toNat = a.toNat)
    (hn : fieldNN w = nn) : a ++ regBits (fieldX w) ++ nn = w := by
  apply BitVec.eq_of_toNat_eq
  rw [toNat_fieldOp] at ha
  rw [← hn, toNat_digitsByte, toNat_regBits, val_fieldX, toNat_fieldNN]
  have := w.isLt
  omega

/-- A word is put together from its opcode digit and its address, format `A` of R59. -/
theorem digitAddr_eq_of_fields {w : Word} {a : BitVec 4} (ha : (fieldOp w).toNat = a.toNat) :
    a ++ fieldNNN w = w := by
  apply BitVec.eq_of_toNat_eq
  rw [toNat_fieldOp] at ha
  rw [toNat_digitAddr, toNat_fieldNNN]
  have := w.isLt
  omega

variable {w : Word} {i : Instr}

theorem encode_of_decodeGroup0 (h : decodeGroup0 w = .ok i) : encode i = w := by
  unfold decodeGroup0 at h
  split_ifs at h with hcls hret <;> cases h
  · exact hcls.symm
  · exact hret.symm

theorem encode_of_decodeGroup5 (hop : (fieldOp w).toNat = 0x5) (h : decodeGroup5 w = .ok i) : encode i = w := by
  unfold decodeGroup5 at h
  split at h <;> cases h
  exact digits_eq_of_fields hop ‹_›

theorem encode_of_decodeGroup8 (hop : (fieldOp w).toNat = 0x8) (h : decodeGroup8 w = .ok i) : encode i = w := by
  unfold decodeGroup8 at h
  split at h <;> cases h
  all_goals exact digits_eq_of_fields hop ‹_›

theorem encode_of_decodeGroup9 (hop : (fieldOp w).toNat = 0x9) (h : decodeGroup9 w = .ok i) : encode i = w := by
  unfold decodeGroup9 at h
  split at h <;> cases h
  exact digits_eq_of_fields hop ‹_›

theorem encode_of_decodeGroupE (hop : (fieldOp w).toNat = 0xE) (h : decodeGroupE w = .ok i) : encode i = w := by
  unfold decodeGroupE at h
  split_ifs at h <;> cases h
  all_goals exact digitsByte_eq_of_fields hop ‹_›

theorem encode_of_decodeGroupF (hop : (fieldOp w).toNat = 0xF) (h : decodeGroupF w = .ok i) : encode i = w := by
  unfold decodeGroupF at h
  split_ifs at h <;> cases h
  all_goals exact digitsByte_eq_of_fields hop ‹_›

/-- No bit of a legal word is dropped (R72): the word is the encoding of what it decodes to. -/
theorem encode_of_decodeWord (h : decodeWord w = .ok i) : encode i = w := by
  unfold decodeWord at h
  split at h <;> rename_i hop
  case h_1 => exact encode_of_decodeGroup0 h
  case h_6 => exact encode_of_decodeGroup5 hop h
  case h_9 => exact encode_of_decodeGroup8 hop h
  case h_10 => exact encode_of_decodeGroup9 hop h
  case h_15 => exact encode_of_decodeGroupE hop h
  case h_16 =>
    have := (fieldOp w).isLt
    simp only [imp_false] at *
    exact encode_of_decodeGroupF (by omega) h
  all_goals cases h
  case h_2 | h_3 | h_11 | h_12 => exact digitAddr_eq_of_fields hop
  case h_4 | h_5 | h_7 | h_8 | h_13 => exact digitsByte_eq_of_fields hop rfl
  case h_14 => exact digits_eq_of_fields hop (by rw [BitVec.ofNat_toNat, BitVec.setWidth_eq])

end Sys2Proof

namespace Sys2Proof.Machine

/-! ## The cases of `exec` -/

@[simp] theorem State.skipIf_status (s : State) (c : Bool) : (s.skipIf c).status = s.status := by
  rw [State.skipIf_eq]

@[simp] theorem State.skipIf_mem (s : State) (c : Bool) : (s.skipIf c).mem = s.mem := by
  rw [State.skipIf_eq]

/-- What an instruction that raises nothing does to the status and to memory: only `FX0A` changes the status, and
memory changes only by bytes stored at `I`, all of them inside memory. -/
structure Completes (i : Instr) (s t : State) : Prop where
  status : t.status = s.status ∨ ∃ x, i = .ldVxK x ∧ t.status = .waitingKey x
  mem : t.mem = s.mem ∨
    ∃ bytes : List Byte, s.I.toNat + bytes.length ≤ 4096 ∧ t.mem = s.mem.writeBytes s.I.toNat bytes

/-- `exec` raises exactly the exception of R117's table, or it completes. -/
def RaisesOrCompletes (i : Instr) (s : State) : Prop :=
  (∃ kind bad, instrFault i s = some (kind, bad) ∧ exec i s = raise kind i bad s) ∨
  (instrFault i s = none ∧ ∃ t, exec i s = .next t ∧ Completes i s t)

section
variable {i : Instr} {s : State}

theorem Completes.of_eq {t : State} (hstatus : t.status = s.status) (hmem : t.mem = s.mem) : Completes i s t :=
  ⟨.inl hstatus, .inl hmem⟩

theorem Completes.of_store {bytes : List Byte} {t : State} (hfits : s.I.toNat + bytes.length ≤ 4096)
    (hstatus : t.status = s.status) (hmem : t.mem = s.mem.writeBytes s.I.toNat bytes) : Completes i s t :=
  ⟨.inl hstatus, .inr ⟨bytes, hfits, hmem⟩⟩

theorem raisesOrCompletes_of_next {t : State} (hfault : instrFault i s = none) (hexec : exec i s = .next t)
    (hstatus : t.status = s.status) (hmem : t.mem = s.mem) : RaisesOrCompletes i s :=
  .inr ⟨hfault, t, hexec, .of_eq hstatus hmem⟩

/-- An instruction guarded by the index in `V[x]` (R104, R105, R111). -/
theorem raisesOrCompletes_of_withIndex {x : Reg} {k : Fin 16 → State} (hexec : exec i s = withIndex i x s k)
    (hfault : instrFault i s =
      if (s.getV x).toNat > 15 then some (.outOfBounds, some (s.getV x).toNat) else none)
    (hk : ∀ d, Completes i s (k d)) : RaisesOrCompletes i s := by
  rcases withIndex_cases i x s k with ⟨h, e⟩ | ⟨h, e⟩
  · exact .inr ⟨by rw [hfault, if_neg (by omega)], _, hexec.trans e, hk _⟩
  · exact .inl ⟨_, _, by rw [hfault, if_pos h], hexec.trans e⟩

/-- An instruction guarded by the bounds check of the `n` bytes at `I` (20_memory.md R43). -/
theorem raisesOrCompletes_of_withBytesAtI {n : Nat} {t : State} (hexec : exec i s = withBytesAtI i n s t)
    (hfault : instrFault i s =
      if 0 < n ∧ 4096 < s.I.toNat + n then some (.outOfBounds, some (max s.I.toNat 4096)) else none)
    (ht : n = 0 ∨ s.I.toNat + n ≤ 4096 → Completes i s t) : RaisesOrCompletes i s := by
  rcases withBytesAtI_cases i n s t with ⟨h, e⟩ | ⟨h, e⟩
  · exact .inr ⟨by rw [hfault, if_neg (by omega)], t, hexec.trans e, ht h⟩
  · exact .inl ⟨_, _, by rw [hfault, if_pos h], hexec.trans e⟩

end

theorem exec_call_of_push {nnn : BitVec 12} {s t : State} (h : s.push s.pc = some t) :
    exec (.call nnn) s = .next (t.setPc (addrOperand nnn)) := by
  simp only [exec, execCall, h]

theorem exec_ret_of_pop {v : Word} {s t : State} (h : s.pop = some (v, t)) : exec .ret s = .next (t.setPc v) := by
  simp only [exec, execRet, h]

theorem raisesOrCompletes_call (nnn : BitVec 12) (s : State) : RaisesOrCompletes (.call nnn) s := by
  rcases s.push_cases s.pc with ⟨hfull, e⟩ | ⟨hroom, _, e⟩
  · exact .inl ⟨_, _, if_pos hfull, by simp only [exec, execCall, e]⟩
  · exact .inr ⟨if_neg (by omega), _, exec_call_of_push e, .of_eq rfl rfl⟩

theorem raisesOrCompletes_ret (s : State) : RaisesOrCompletes .ret s := by
  rcases s.pop_cases with ⟨hempty, e⟩ | ⟨_, _, hlive, e⟩
  · exact .inl ⟨_, _, if_pos hempty, by simp only [exec, execRet, e]⟩
  · exact .inr ⟨if_neg (by omega), _, exec_ret_of_pop e, .of_eq rfl rfl⟩

/-- Every instruction raises the exception that R117's table gives it, and otherwise completes. -/
theorem exec_raisesOrCompletes (i : Instr) (s : State) : RaisesOrCompletes i s := by
  cases i with
  | call nnn => exact raisesOrCompletes_call nnn s
  | ret => exact raisesOrCompletes_ret s
  | ldVxK x => exact .inr ⟨rfl, _, rfl, .inr ⟨x, rfl, rfl⟩, .inl rfl⟩
  | skp x | sknp x =>
    exact raisesOrCompletes_of_withIndex rfl rfl fun _ => .of_eq (s.skipIf_status _) (s.skipIf_mem _)
  | ldFVx x => exact raisesOrCompletes_of_withIndex rfl rfl fun _ => .of_eq rfl rfl
  | drw x y n =>
    exact raisesOrCompletes_of_withBytesAtI rfl (if_congr (by omega) rfl rfl) fun _ => .of_eq rfl rfl
  | ldBVx x =>
    exact raisesOrCompletes_of_withBytesAtI rfl (if_congr (by omega) rfl rfl) fun hfits =>
      .of_store (bytes := bcdDigits (s.getV x)) (by simpa [bcdDigits] using hfits) rfl rfl
  | ldMemVx x =>
    exact raisesOrCompletes_of_withBytesAtI rfl (if_congr (by omega) rfl rfl) fun hfits =>
      .of_store (bytes := s.regsUpTo x) (by rw [State.regsUpTo_length]; omega) rfl rfl
  | ldVxMem x =>
    exact raisesOrCompletes_of_withBytesAtI rfl (if_congr (by omega) rfl rfl) fun _ => .of_eq (by simp) (by simp)
  | seImm _ _ | sneImm _ _ | seReg _ _ | sneReg _ _ =>
    exact raisesOrCompletes_of_next rfl rfl (s.skipIf_status _) (s.skipIf_mem _)
  | cls | jp _ | jpV0 _ | ldImm _ _ | addImm _ _ | ldReg _ _ | orReg _ _ | andReg _ _ | xorReg _ _
  | addReg _ _ | subReg _ _ | shr _ _ | subnReg _ _ | shl _ _ | rnd _ _
  | ldI _ | addIVx _ | ldVxDt _ | ldDtVx _ | ldStVx _ => exact raisesOrCompletes_of_next rfl rfl rfl rfl

/-! ## The cases of `step` -/

section
variable {s : State}

theorem step_of_not_running (h : s.status ≠ .running) : step s = .next s := by
  unfold step engineStep
  split
  · contradiction
  · rfl
  · rfl

theorem step_of_running (h : s.status = .running) : step s = runInstruction s := by
  simp only [step, engineStep, h]

theorem runInstruction_of_word (hpc : s.pc.toNat + 1 ≤ 4095) : runInstruction s = runWord (wordAtPc s) s := by
  simp only [runInstruction, fetchWord_eq_ok s hpc]
  rfl

theorem runWord_of_ok {w : Word} {i : Instr} (hd : decodeWord w = .ok i) : runWord w s = exec i s.advancePc := by
  simp only [runWord, hd]

/-- An exception of the step's own instruction changes the status and nothing else (60_exceptions.md R118): the fetch
advance is undone. -/
theorem raise_advancePc (kind : FaultKind) (i : Instr) (bad : Option Nat) :
    raise kind i bad s.advancePc = .next (s.setStatus (.halted ⟨kind, s.pc, some (encode i), bad⟩)) := by
  have hpc : s.pc + 2 - 2 = s.pc := BitVec.add_sub_cancel _ _
  rw [raise_eq, State.advancePc_pc, hpc]
  rfl

theorem faultOf_of_past (hpc : ¬ s.pc.toNat + 1 ≤ 4095) :
    faultOf s = some ⟨.outOfBounds, s.pc, none, some (max s.pc.toNat 4096)⟩ :=
  if_pos (Nat.lt_of_not_le hpc)

theorem faultOf_of_error {e : DecodeReject} (hpc : s.pc.toNat + 1 ≤ 4095)
    (hd : decodeWord (wordAtPc s) = .error e) :
    faultOf s = some ⟨.decodeError, s.pc, some (wordAtPc s), none⟩ := by
  rw [faultOf, if_neg (Nat.not_lt.2 hpc), hd]

theorem faultOf_of_ok {i : Instr} (hpc : s.pc.toNat + 1 ≤ 4095) (hd : decodeWord (wordAtPc s) = .ok i) :
    faultOf s = (instrFault i s).map fun f => ⟨f.1, s.pc, some (wordAtPc s), f.2⟩ := by
  rw [faultOf, if_neg (Nat.not_lt.2 hpc), hd]

/-- What a step in status `Running` can do (R60, R118): the fault of R117 is recorded in the status and nothing else
changes, or there is no fault and the decoded instruction completes on the advanced state. -/
theorem step_running_cases (h : s.status = .running) :
    (∃ info, faultOf s = some info ∧ step s = .next (s.setStatus (.halted info))) ∨
    (faultOf s = none ∧ ∃ i t, decodeWord (wordAtPc s) = .ok i ∧ exec i s.advancePc = .next t ∧
      step s = .next t ∧ Completes i s.advancePc t) := by
  rw [step_of_running h]
  by_cases hpc : s.pc.toNat + 1 ≤ 4095
  · rw [runInstruction_of_word hpc]
    rcases hd : decodeWord (wordAtPc s) with e | i
    · exact .inl ⟨_, faultOf_of_error hpc hd, by simp only [runWord, hd]; rfl⟩
    · rw [faultOf_of_ok hpc hd, runWord_of_ok hd]
      rcases exec_raisesOrCompletes i s.advancePc with ⟨kind, bad, hfault, he⟩ | ⟨hfault, t, he, hcompletes⟩
      · refine .inl ⟨⟨kind, s.pc, some (wordAtPc s), bad⟩, congrArg _ hfault, ?_⟩
        rw [he, raise_advancePc, encode_of_decodeWord hd]
      · exact .inr ⟨congrArg _ hfault, i, t, rfl, he, he, hcompletes⟩
  · refine .inl ⟨_, faultOf_of_past hpc, ?_⟩
    simp only [runInstruction, fetchWord_eq_error s (Nat.lt_of_not_le hpc)]
    rfl

/-- Every step answers a next state: `Fault` and `Refusal` are never reached (log 3). -/
theorem step_eq_next (s : State) : ∃ t, step s = .next t := by
  by_cases h : s.status = .running
  · rcases step_running_cases h with ⟨_, _, he⟩ | ⟨_, _, t, _, _, he, _⟩
    · exact ⟨_, he⟩
    · exact ⟨t, he⟩
  · exact ⟨s, step_of_not_running h⟩

end

end Sys2Proof.Machine
end

section
/-! PROOFS. Family 00_scope: every step answers one of the three outcomes, and every schedule of host operations keeps
the invariant. -/

namespace Sys2Proof.Machine

/-! ## The outcome of a step -/

theorem outcomeOf_eq_continues_iff (s : State) : outcomeOf s = .continues ↔ s.status = .running := by
  unfold outcomeOf
  split <;> simp_all

theorem outcomeOf_eq_waitingForKey_iff (s : State) :
    outcomeOf s = .waitingForKey ↔ ∃ x, s.status = .waitingKey x := by
  unfold outcomeOf
  split <;> simp_all

theorem outcomeOf_eq_halted_iff (s : State) (kind : FaultKind) :
    outcomeOf s = .halted kind ↔ ∃ info, s.status = .halted info ∧ info.kind = kind := by
  unfold outcomeOf
  split <;> simp_all

theorem hostStep_of_next {s t : State} (h : step s = .next t) : hostStep s = (t, .outcome (outcomeOf t)) := by
  simp only [hostStep, h]

/-- Settles O8: a step answers a next state, and the outcome is read off that state's status. -/
theorem everyStepReturnsOneOfThreeOutcomes : Obligations.EveryStepReturnsOneOfThreeOutcomes := by
  intro s
  obtain ⟨t, ht⟩ := step_eq_next s
  exact ⟨t, ht, hostStep_of_next ht, outcomeOf_eq_continues_iff t, outcomeOf_eq_waitingForKey_iff t,
    outcomeOf_eq_halted_iff t⟩

/-! ## The invariant along host operations -/

section
variable {s t : State}

/-- The fault of the instruction at `pc` depends on memory, the registers, `I`, `pc` and `sp` only. -/
theorem faultOf_congr (hmem : t.mem = s.mem) (hV : t.V = s.V) (hI : t.I = s.I) (hpc : t.pc = s.pc)
    (hsp : t.sp = s.sp) : faultOf t = faultOf s := by
  obtain ⟨⟩ := s
  obtain ⟨⟩ := t
  subst hmem hV hI hpc hsp
  rfl

/-- Neither the timers, the display, the keys, the stack entries nor the count of draws matter to the invariant. -/
theorem Inv.congr (h : Inv s) (hmem : t.mem = s.mem) (hV : t.V = s.V) (hI : t.I = s.I) (hpc : t.pc = s.pc)
    (hsp : t.sp = s.sp) (hstatus : t.status = s.status) : Inv t := by
  obtain ⟨hwf, hhalted⟩ := h
  refine ⟨hmem ▸ hwf, fun info hinfo => ?_⟩
  rw [faultOf_congr hmem hV hI hpc hsp]
  exact hhalted info (hstatus ▸ hinfo)

/-- Outside `Halted` the invariant is the canonical form of memory. -/
theorem inv_of_safe (hwf : t.mem.wf) (hsafe : t.Safe) : Inv t :=
  ⟨hwf, fun info hinfo => absurd hinfo (hsafe info)⟩

/-- Recording the fault of the instruction at `pc` keeps the invariant. -/
theorem inv_setStatus_halted {info : FaultInfo} (hwf : s.mem.wf) (hfault : faultOf s = some info) :
    Inv (s.setStatus (.halted info)) := by
  refine ⟨hwf, fun info' hinfo' => ?_⟩
  cases hinfo'
  exact hfault

theorem Completes.wf {i : Instr} (h : Completes i s t) (hwf : s.mem.wf) : t.mem.wf := by
  rcases h.mem with e | ⟨bytes, hfits, e⟩ <;> rw [e]
  · exact hwf
  · exact Memory.wf_writeBytes hwf hfits

theorem Completes.safe {i : Instr} (h : Completes i s t) (hsafe : s.Safe) : t.Safe := by
  intro info
  rcases h.status with e | ⟨x, _, e⟩ <;> rw [e]
  · exact hsafe info
  · exact nofun

/-- A step keeps the invariant. -/
theorem inv_step (h : Inv s) (hstep : step s = .next t) : Inv t := by
  by_cases hrun : s.status = .running
  · rcases step_running_cases hrun with ⟨info, hfault, e⟩ | ⟨_, i, u, _, _, e, hcompletes⟩ <;>
      cases hstep.symm.trans e
    · exact inv_setStatus_halted h.1 hfault
    · have hsafe : s.advancePc.Safe := fun info hinfo => by cases hrun.symm.trans hinfo
      exact inv_of_safe (hcompletes.wf h.1) (hcompletes.safe hsafe)
  · cases hstep.symm.trans (step_of_not_running hrun)
    exact h

/-- A key change keeps the invariant: it records no fault, and it keeps the one recorded. -/
theorem inv_changeKey (h : Inv s) (k : Key) (pressed : Bool) : Inv (changeKey k pressed s) := by
  have hkey : Inv (s.setKeyBit k pressed) := h.congr rfl rfl rfl rfl rfl rfl
  unfold changeKey
  split
  · split
    · exact inv_of_safe h.1 nofun
    · exact hkey
  · exact hkey
  · exact hkey

theorem inv_of_setKey {k : Nat} {pressed : Bool} (h : Inv s) (e : setKey k pressed s = some t) : Inv t := by
  unfold setKey at e
  split at e <;> cases e
  exact inv_changeKey h _ _

/-- A load that fits leaves canonical memory, and the engine running. -/
theorem inv_of_load {image : List Byte} (e : load image s = some t) : Inv t := by
  unfold load at e
  split at e <;> cases e
  next hfits => exact inv_of_safe (Memory.wf_writeBytes Memory.wf_nil (Nat.le_of_not_lt hfits)) nofun

/-- A restore that succeeds leaves the captured state but for its keys and draws, which the invariant does not read. -/
theorem inv_of_restore {img : SnapshotImage} (hproper : (HostOp.restore img).Proper)
    (e : restore img s = some t) : Inv t := by
  unfold restore at e
  split at e
  · obtain ⟨c, hc, rfl⟩ := Option.map_eq_some_iff.1 e
    obtain ⟨u, hu, rfl⟩ := hproper img c rfl hc
    exact hu.congr rfl rfl rfl rfl rfl rfl
  · cases e

/-- An operation that may fail keeps the invariant if its success does. -/
theorem inv_settle {o : Option State} (h : Inv s) (success failure : HostResult) (ho : ∀ t, o = some t → Inv t) :
    Inv (settle s success failure o).1 := by
  cases o with
  | none => exact h
  | some t => exact ho t rfl

/-- One proper host operation keeps the invariant (60_exceptions.md R129). -/
theorem inv_hostOp {op : HostOp} (h : Inv s) (hproper : op.Proper) : Inv (hostOp op s).1 := by
  cases op with
  | load image => exact inv_settle h _ _ fun _ => inv_of_load
  | step =>
    obtain ⟨t, ht⟩ := step_eq_next s
    have e : hostOp .step s = (t, .outcome (outcomeOf t)) := hostStep_of_next ht
    rw [e]
    exact inv_step h ht
  | tickTimers => exact h.congr rfl rfl rfl rfl rfl rfl
  | setKey k pressed => exact inv_settle h _ _ fun _ => inv_of_setKey h
  | readDisplay | readSound | capture => exact h
  | restore img => exact inv_settle h _ _ fun _ => inv_of_restore hproper

end

/-- Settles O50, by induction on the list of host operations: each proper operation keeps the invariant. -/
theorem everyHostScheduleKeepsTheInvariant : Obligations.EveryHostScheduleKeepsTheInvariant := by
  intro ops
  induction ops with
  | nil => exact fun _ _ h => h
  | cons op ops ih =>
    intro s hproper h
    have hop : Inv (hostOp op s).1 := inv_hostOp h (hproper op List.mem_cons_self)
    exact ih _ (fun op' hmem => hproper op' (List.mem_cons_of_mem _ hmem)) hop

end Sys2Proof.Machine
end

section
/-! SUPPORT. What each instruction leaves when it raises nothing, as one function of the state (`effect`), tied to
`exec` and to `step`; and which parts of the state an instruction can change. -/

namespace Sys2Proof.Machine

/-! ## The effect of an instruction -/

/-- The state that an instruction leaves when it raises nothing (40_alu.md R73 to 44_index_memory.md R115): the meanings
of `exec` with their guards passed (`exec_eq_effect`). -/
def effect (i : Instr) (s : State) : State :=
  match i with
  | .cls => s.setDisp Display.blank
  | .ret => { s with pc := s.stack.toList.getD (s.sp.val - 1) 0, sp := Fin.ofNat 17 (s.sp.val - 1) }
  | .jp nnn => s.setPc (addrOperand nnn)
  | .call nnn =>
    { s with pc := addrOperand nnn, sp := Fin.ofNat 17 (s.sp.val + 1), stack := s.stack.setIfInBounds s.sp.val s.pc }
  | .seImm x nn => s.skipIf (s.getV x == nn)
  | .sneImm x nn => s.skipIf (s.getV x != nn)
  | .seReg x y => s.skipIf (s.getV x == s.getV y)
  | .ldImm x nn => s.setV x nn
  | .addImm x nn => s.setV x (s.getV x + nn)
  | .ldReg x y => s.setV x (s.getV y)
  | .orReg x y => s.setV x (s.getV x ||| s.getV y)
  | .andReg x y => s.setV x (s.getV x &&& s.getV y)
  | .xorReg x y => s.setV x (s.getV x ^^^ s.getV y)
  | .addReg x y => s.writeFlagThenResult (carryFlag (s.getV x) (s.getV y)) x (s.getV x + s.getV y)
  | .subReg x y => s.writeFlagThenResult (noBorrowFlag (s.getV x) (s.getV y)) x (s.getV x - s.getV y)
  | .shr x _ => s.writeFlagThenResult (shiftedOutRight (s.getV x)) x (s.getV x >>> 1)
  | .subnReg x y => s.writeFlagThenResult (noBorrowFlag (s.getV y) (s.getV x)) x (s.getV y - s.getV x)
  | .shl x _ => s.writeFlagThenResult (shiftedOutLeft (s.getV x)) x (s.getV x <<< 1)
  | .sneReg x y => s.skipIf (s.getV x != s.getV y)
  | .ldI nnn => s.setI (addrOperand nnn)
  | .jpV0 nnn => s.setPc (addrOperand nnn + (s.getV 0).zeroExtend 16)
  | .rnd x nn => s.draw8.2.setV x (s.draw8.1 &&& nn)
  | .drw x y n =>
    let drawn := drawSprite (s.getV x).toNat (s.getV y).toNat (s.bytesAtI n) s.disp
    (s.setDisp drawn.1).setV vf (flagByte drawn.2)
  | .skp x => s.skipIf (s.keyDown (Fin.ofNat 16 (s.getV x).toNat))
  | .sknp x => s.skipIf (!s.keyDown (Fin.ofNat 16 (s.getV x).toNat))
  | .ldVxDt x => s.setV x s.dt
  | .ldVxK x => s.setStatus (.waitingKey x)
  | .ldDtVx x => s.setDt (s.getV x)
  | .ldStVx x => s.setSt (s.getV x)
  | .addIVx x => s.setI (s.I + (s.getV x).zeroExtend 16)
  | .ldFVx x => s.setI (BitVec.ofNat 16 (fontBase + glyphBytes * (Fin.ofNat 16 (s.getV x).toNat).val))
  | .ldBVx x => s.storeAtI (bcdDigits (s.getV x))
  | .ldMemVx x => (s.storeAtI (s.regsUpTo x)).setI (indexAfterTransfer x s.I)
  | .ldVxMem x => (s.loadRegsUpTo x (s.bytesAtI (x.val + 1))).setI (indexAfterTransfer x s.I)

section
variable {i : Instr} {s t : State}

/-- With an index in range, the guarded meaning runs with it (R104, R111). -/
theorem withIndex_of_le {x : Reg} {k : Fin 16 → State} (h : ¬ (s.getV x).toNat > 15) :
    withIndex i x s k = .next (k (Fin.ofNat 16 (s.getV x).toNat)) := by
  rcases withIndex_cases i x s k with ⟨hlt, e⟩ | ⟨hgt, _⟩
  · have hd : Fin.ofNat 16 (s.getV x).toNat = ⟨(s.getV x).toNat, hlt⟩ := Fin.ext (Nat.mod_eq_of_lt hlt)
    rw [hd, e]
  · exact absurd hgt h

/-- With the bytes at `I` in memory, the guarded meaning runs (20_memory.md R43). -/
theorem withBytesAtI_of_fits {n : Nat} (h : ¬ (0 < n ∧ 4096 < s.I.toNat + n)) :
    withBytesAtI i n s t = .next t := by
  rcases withBytesAtI_cases i n s t with ⟨_, e⟩ | ⟨hpast, _⟩
  · exact e
  · exact absurd hpast h

/-- A call with room on the stack pushes `pc` and jumps (R88). -/
theorem exec_call_of_room {nnn : BitVec 12} (h : s.sp.val ≠ 16) :
    exec (.call nnn) s = .next (effect (.call nnn) s) := by
  rcases s.push_cases s.pc with ⟨hfull, _⟩ | ⟨hlt, hlt', e⟩
  · exact absurd hfull h
  · have hsp : Fin.ofNat 17 (s.sp.val + 1) = ⟨s.sp.val + 1, hlt'⟩ := Fin.ext (Nat.mod_eq_of_lt hlt')
    have hstack : s.stack.set s.sp.val s.pc hlt = s.stack.setIfInBounds s.sp.val s.pc :=
      Vector.ext fun _ _ => by rw [Vector.getElem_set, Vector.getElem_setIfInBounds]
    rw [exec_call_of_push e, effect, hsp, hstack]
    rfl

/-- A return with a live entry jumps to the top one and drops it (R89). -/
theorem exec_ret_of_live (h : s.sp.val ≠ 0) : exec .ret s = .next (effect .ret s) := by
  rcases s.pop_cases with ⟨hempty, _⟩ | ⟨hlt, hlt', _, e⟩
  · exact absurd hempty h
  · have hsp : Fin.ofNat 17 (s.sp.val - 1) = ⟨s.sp.val - 1, hlt'⟩ := Fin.ext (Nat.mod_eq_of_lt hlt')
    rw [exec_ret_of_pop e, effect, hsp]
    simp [State.setPc, List.getD, hlt]

/-- An instruction to which R117's table gives no exception leaves its effect. -/
theorem exec_eq_effect (h : instrFault i s = none) : exec i s = .next (effect i s) := by
  cases i with
  | call nnn => exact exec_call_of_room fun hfull => by simp [instrFault, hfull] at h
  | ret => exact exec_ret_of_live fun hempty => by simp [instrFault, hempty] at h
  | skp x | sknp x | ldFVx x => exact withIndex_of_le fun hgt => by simp [instrFault] at h; omega
  | drw x y n | ldBVx x | ldMemVx x | ldVxMem x =>
    exact withBytesAtI_of_fits fun hpast => by simp [instrFault] at h; omega
  | _ => rfl

/-- What `exec` can answer: the state of R118 for the exception of R117, or the instruction's effect. -/
theorem exec_next_cases (h : exec i s = .next t) :
    (∃ kind bad, instrFault i s = some (kind, bad) ∧ t = takeException kind (s.pc - 2) (some (encode i)) bad s) ∨
    (instrFault i s = none ∧ t = effect i s) := by
  rcases hf : instrFault i s with _ | ⟨kind, bad⟩
  · exact .inr ⟨rfl, by cases (exec_eq_effect hf).symm.trans h; rfl⟩
  · rcases exec_raisesOrCompletes i s with ⟨kind', bad', hf', e⟩ | ⟨hf', _⟩
    · cases hf.symm.trans hf'
      exact .inl ⟨kind, bad, rfl, by cases e.symm.trans h; rfl⟩
    · cases hf.symm.trans hf'

/-- The exception of an instruction does not depend on `pc`. -/
theorem instrFault_advancePc (i : Instr) (s : State) : instrFault i s.advancePc = instrFault i s := by
  cases i <;> rfl

theorem instrFault_of_faultOf (hfault : faultOf s = none) (hd : decodeWord (wordAtPc s) = .ok i) :
    instrFault i s = none := by
  by_cases hpc : s.pc.toNat + 1 ≤ 4095
  · exact Option.map_eq_none_iff.1 ((faultOf_of_ok hpc hd).symm.trans hfault)
  · cases hfault.symm.trans (faultOf_of_past hpc)

/-- A step that raises nothing leaves the effect of the decoded instruction on the advanced state (R60, R62). -/
theorem step_eq_effect (hrun : s.status = .running) (hfault : faultOf s = none) :
    ∃ i, decodeWord (wordAtPc s) = .ok i ∧ instrFault i s = none ∧ step s = .next (effect i s.advancePc) := by
  rcases step_running_cases hrun with ⟨_, hsome, _⟩ | ⟨_, i, t, hd, hexec, hstep, _⟩
  · cases hfault.symm.trans hsome
  · have hi : instrFault i s = none := instrFault_of_faultOf hfault hd
    refine ⟨i, hd, hi, ?_⟩
    rw [hstep, ← hexec, exec_eq_effect ((instrFault_advancePc i s).trans hi)]

/-- A step that raises an exception records it and changes nothing else (60_exceptions.md R118). -/
theorem step_eq_halted {info : FaultInfo} (hrun : s.status = .running) (hfault : faultOf s = some info) :
    step s = .next (s.setStatus (.halted info)) := by
  rcases step_running_cases hrun with ⟨info', hsome, e⟩ | ⟨hnone, _⟩
  · cases hfault.symm.trans hsome
    exact e
  · cases hfault.symm.trans hnone

end

/-! ## The parts an instruction can change -/

/-- What `FX55` and `FX65` change besides the bytes they move: `I` when `BULK_ADVANCES_I` is true (44_index_memory.md
R115). -/
def bulkIndexParts : List Part := if Config.bulkAdvancesI then [.index] else []

@[simp] theorem mem_bulkIndexParts {p : Part} : p ∈ bulkIndexParts ↔ Config.bulkAdvancesI = true ∧ p = .index := by
  unfold bulkIndexParts
  split <;> simp_all

/-- The parts of the state that an instruction's effect can change. -/
def changedParts : Instr → List Part
  | .cls => [.display]
  | .drw _ _ _ => [.display, .regs]
  | .ret => [.sp, .pc]
  | .call _ => [.stack, .sp, .pc]
  | .jp _ | .jpV0 _ => [.pc]
  | .seImm _ _ | .sneImm _ _ | .seReg _ _ | .sneReg _ _ | .skp _ | .sknp _ => [.pc]
  | .ldImm _ _ | .addImm _ _ | .ldReg _ _ | .orReg _ _ | .andReg _ _ | .xorReg _ _ | .ldVxDt _ => [.regs]
  | .addReg _ _ | .subReg _ _ | .shr _ _ | .subnReg _ _ | .shl _ _ => [.regs]
  | .rnd _ _ => [.draws, .regs]
  | .ldDtVx _ => [.delay]
  | .ldStVx _ => [.sound]
  | .ldVxK _ => [.status]
  | .ldI _ | .addIVx _ | .ldFVx _ => [.index]
  | .ldBVx _ => [.memory]
  | .ldMemVx _ => [.memory] ++ bulkIndexParts
  | .ldVxMem _ => [.regs] ++ bulkIndexParts

theorem UnchangedBut.mono {s t : State} {a b : List Part} (h : UnchangedBut a s t) (hab : a ⊆ b) :
    UnchangedBut b s t :=
  fun p hp => h p fun ha => hp (hab ha)

theorem unchangedBut_setI_indexAfterTransfer (s : State) (x : Reg) :
    UnchangedBut bulkIndexParts s (s.setI (indexAfterTransfer x s.I)) := by
  unfold bulkIndexParts indexAfterTransfer
  split
  · exact unchangedBut_setI s _
  · intro p _
    cases p <;> simp [Keeps]

/-- An instruction's effect changes only the parts listed for it. -/
theorem unchangedBut_effect (i : Instr) (s : State) : UnchangedBut (changedParts i) s (effect i s) := by
  cases i with
  | cls => exact unchangedBut_setDisp s _
  | drw x y n => exact (unchangedBut_setDisp s _).trans (unchangedBut_setV _ _ _)
  | ret | call nnn => intro p hp; cases p <;> simp_all [Keeps, effect, changedParts, State.getV, State.keyDown]
  | jp nnn | jpV0 nnn => exact unchangedBut_setPc s _
  | seImm _ _ | sneImm _ _ | seReg _ _ | sneReg _ _ | skp _ | sknp _ => exact unchangedBut_skipIf s _
  | ldImm _ _ | addImm _ _ | ldReg _ _ | orReg _ _ | andReg _ _ | xorReg _ _ | ldVxDt _ =>
    exact unchangedBut_setV s _ _
  | addReg _ _ | subReg _ _ | shr _ _ | subnReg _ _ | shl _ _ => exact unchangedBut_writeFlagThenResult s _ _ _
  | rnd x nn =>
    have hdraw : UnchangedBut [.draws] s s.draw8.2 := fun p hp => by
      cases p <;> simp_all [Keeps, State.draw8, State.getV, State.keyDown]
    exact hdraw.trans (unchangedBut_setV _ _ _)
  | ldDtVx _ => exact unchangedBut_setDt s _
  | ldStVx _ => exact unchangedBut_setSt s _
  | ldVxK _ => exact unchangedBut_setStatus s _
  | ldI _ | addIVx _ | ldFVx _ => exact unchangedBut_setI s _
  | ldBVx _ => exact unchangedBut_setMem s _
  | ldMemVx x => exact (unchangedBut_setMem s _).trans (unchangedBut_setI_indexAfterTransfer _ x)
  | ldVxMem x => exact (unchangedBut_loadRegsUpTo s x _).trans (unchangedBut_setI_indexAfterTransfer _ x)

/-- `exec` changes only `pc`, the status and the parts listed for the instruction. -/
theorem unchangedBut_of_exec {i : Instr} {s t : State} (h : exec i s = .next t) :
    UnchangedBut ([.pc, .status] ++ changedParts i) s t := by
  rcases exec_next_cases h with ⟨kind, bad, _, rfl⟩ | ⟨_, rfl⟩
  · exact (unchangedBut_takeException s _ _ _ _).mono (List.subset_append_left _ _)
  · exact (unchangedBut_effect i s).mono (List.subset_append_right _ _)

end Sys2Proof.Machine
end

section
/-! PROOFS. Family 10_state: the state after reset, what each instruction does to `pc`, which parts of the state only
some instructions change, and that dead stack entries are unobservable. -/

namespace Sys2Proof.Machine

/-! ## `pc` after a step -/

theorem addrOperand_eq (nnn : BitVec 12) : addrOperand nnn = BitVec.ofNat 16 nnn.toNat :=
  BitVec.eq_of_toNat_eq (by have := nnn.isLt; rw [toNat_addrOperand, BitVec.toNat_ofNat]; omega)

theorem addrOperand_add (nnn : BitVec 12) (v : Byte) :
    addrOperand nnn + v.zeroExtend 16 = BitVec.ofNat 16 (nnn.toNat + v.toNat) := by
  rw [addrOperand_eq, BitVec.ofNat_add, BitVec.ofNat_toNat 16 v]

/-- A skip after the fetch advance ends at A + 4 or A + 2 (10_state.md R20). -/
theorem skipIf_advancePc_pc (s : State) (c : Bool) :
    (s.advancePc.skipIf c).pc = if c then s.pc + 4 else s.pc + 2 := by
  have h4 : s.pc + 2 + 2 = s.pc + 4 := BitVec.add_assoc _ _ _
  rw [State.skipIf_eq, State.advancePc_pc, h4]

/-- The effect of an instruction leaves `pc` where R20's table says. -/
theorem effect_advancePc_pc (i : Instr) (s : State) : (effect i s.advancePc).pc = pcAfterStep i s := by
  cases i with
  | jp nnn | call nnn => exact addrOperand_eq nnn
  | jpV0 nnn => exact addrOperand_add nnn _
  | ret => rfl
  | skp _ | sknp _ => exact skipIf_advancePc_pc s _
  | seImm _ _ | sneImm _ _ | seReg _ _ | sneReg _ _ =>
    refine (skipIf_advancePc_pc s _).trans ?_
    simp [pcAfterStep]
  | _ => rfl

/-- Settles O9: a faulting step keeps `pc`, and any other leaves the effect of its instruction. -/
theorem pcAfterEachInstruction : Obligations.PcAfterEachInstruction := by
  intro s hrun
  rcases hfault : faultOf s with _ | info
  · obtain ⟨i, hd, _, hstep⟩ := step_eq_effect hrun hfault
    refine ⟨_, hstep, nofun, fun j _ hj => ?_⟩
    cases hd.symm.trans hj
    refine ⟨effect_advancePc_pc i s, ?_⟩
    rintro x rfl
    rfl
  · exact ⟨_, step_eq_halted hrun hfault, fun _ _ => rfl, nofun⟩

/-! ## The registers an instruction writes -/

theorem getV_effect_of_not_mayWrite {i : Instr} {r : Reg} (s : State) (h : ¬ MayWrite i r) :
    (effect i s).getV r = s.getV r := by
  cases i with
  | ldImm _ _ | addImm _ _ | ldReg _ _ | orReg _ _ | andReg _ _ | xorReg _ _ | rnd _ _ | ldVxDt _ =>
    exact (State.getV_setV _ _ _ _).trans (if_neg h)
  | addReg _ _ | subReg _ _ | shr _ _ | subnReg _ _ | shl _ _ =>
    obtain ⟨hvf, hx⟩ := not_or.1 h
    exact (State.getV_writeFlagThenResult _ _ _ _ _).trans ((if_neg hx).trans (if_neg hvf))
  | drw _ _ _ =>
    rw [effect, State.getV_setV, State.setDisp_getV]
    exact if_neg h
  | ldVxMem _ =>
    rw [effect, State.setI_getV, State.getV_loadRegsUpTo]
    exact if_neg h
  | _ => exact unchangedBut_effect _ s .regs (by simp [changedParts]) r

/-- Settles O44: an exception writes no register, and an effect only the registers of R18's table. -/
theorem onlyTheListedRegistersAreWritten : Obligations.OnlyTheListedRegistersAreWritten := by
  intro i s t h r hr
  by_contra hw
  rcases exec_next_cases h with ⟨kind, bad, _, rfl⟩ | ⟨_, rfl⟩
  · exact hr rfl
  · exact hr (getV_effect_of_not_mayWrite s hw)

/-! ## The units that only some instructions change -/

section
variable {s t : State}

theorem stack_eq_of_keeps (h : Keeps s t .stack) : t.stack = s.stack :=
  Vector.ext fun k hk => h ⟨k, hk⟩

theorem disp_eq_of_keeps (h : Keeps s t .display) : t.disp = s.disp :=
  Vector.ext fun r hr => Vector.ext fun c hc => h ⟨r, hr⟩ ⟨c, hc⟩

theorem key_eq_of_keeps (h : Keeps s t .keys) : t.key = s.key :=
  Vector.ext fun k hk => h ⟨k, hk⟩

/-- A part, other than `pc` and the status, that `exec` changes is one listed for the instruction. -/
theorem mem_changedParts_of_not_keeps {i : Instr} {p : Part} (h : exec i s = .next t) (hk : ¬ Keeps s t p)
    (hp : p ∉ [Part.pc, .status]) : p ∈ changedParts i := by
  by_contra hnot
  exact hk (unchangedBut_of_exec h p fun hmem => (List.mem_append.1 hmem).elim hp hnot)

end

section
variable {i : Instr}

theorem ret_or_call_of_mem_changedParts (h : .sp ∈ changedParts i ∨ .stack ∈ changedParts i) :
    i = .ret ∨ ∃ nnn, i = .call nnn := by
  cases i <;> simp_all [changedParts]

theorem cls_or_drw_of_mem_changedParts (h : .display ∈ changedParts i) : i = .cls ∨ ∃ x y n, i = .drw x y n := by
  cases i <;> simp_all [changedParts]

theorem ldDtVx_of_mem_changedParts (h : .delay ∈ changedParts i) : ∃ x, i = .ldDtVx x := by
  cases i <;> simp_all [changedParts]

theorem ldStVx_of_mem_changedParts (h : .sound ∈ changedParts i) : ∃ x, i = .ldStVx x := by
  cases i <;> simp_all [changedParts]

theorem index_writer_of_mem_changedParts (h : .index ∈ changedParts i) :
    (∃ nnn, i = .ldI nnn) ∨ (∃ x, i = .addIVx x) ∨ (∃ x, i = .ldFVx x) ∨
      (Config.bulkAdvancesI = true ∧ ((∃ x, i = .ldMemVx x) ∨ ∃ x, i = .ldVxMem x)) := by
  cases i <;> simp_all [changedParts]

theorem keys_not_mem_changedParts : .keys ∉ changedParts i := by
  cases i <;> simp [changedParts]

end

/-- Settles O46: `exec` changes only the parts listed for the instruction. -/
theorem eachUnitIsChangedOnlyByItsInstructions : Obligations.EachUnitIsChangedOnlyByItsInstructions := by
  intro i s t h
  have hmem {p : Part} (hp : p ∉ [Part.pc, .status]) (hk : ¬ Keeps s t p) : p ∈ changedParts i :=
    mem_changedParts_of_not_keeps h hk hp
  refine ⟨fun hne => ?_, fun hne => ?_, fun hne => ?_, fun hne => ?_, fun hne => ?_, ?_⟩
  · have hchanged : ¬ Keeps s t .sp ∨ ¬ Keeps s t .stack := hne.imp id fun hne => hne ∘ stack_eq_of_keeps
    exact ret_or_call_of_mem_changedParts (hchanged.imp (hmem (by decide)) (hmem (by decide)))
  · exact cls_or_drw_of_mem_changedParts (hmem (by decide) (hne ∘ disp_eq_of_keeps))
  · exact ldDtVx_of_mem_changedParts (hmem (by decide) hne)
  · exact ldStVx_of_mem_changedParts (hmem (by decide) hne)
  · exact index_writer_of_mem_changedParts (hmem (by decide) hne)
  · by_contra hne
    exact keys_not_mem_changedParts (hmem (by decide) (hne ∘ key_eq_of_keeps))

/-! ## Dead stack entries -/

section
variable {s u : State}

theorem SameButDeadEntries.faultOf_eq (h : SameButDeadEntries s u) : faultOf u = faultOf s := by
  obtain ⟨hu, _⟩ := h
  rw [hu]
  exact faultOf_congr rfl rfl rfl rfl rfl

/-- A change of both states that neither reads nor writes the stack keeps them alike but for dead entries. -/
theorem SameButDeadEntries.map {f : State → State} (h : SameButDeadEntries s u)
    (hf : ∀ w, f { s with stack := w } = { f s with stack := w }) (hstack : (f s).stack = s.stack)
    (hsp : (f s).sp = s.sp) : SameButDeadEntries (f s) (f u) := by
  obtain ⟨hu, hlive⟩ := h
  have hfu : f u = { f s with stack := u.stack } := by rw [hu, hf]
  rw [hfu]
  refine ⟨rfl, fun k hk => ?_⟩
  rw [hsp] at hk
  rw [hstack]
  exact hlive k hk

end

theorem skipIf_withStack (s : State) (c : Bool) (w : Vector Word Config.stackDepth) :
    State.skipIf { s with stack := w } c = { s.skipIf c with stack := w } := by
  cases c <;> rfl

/-- Only call and return read or write the stack. -/
theorem effect_withStack {i : Instr} (hi : ¬ (i = .ret ∨ ∃ nnn, i = .call nnn)) (s : State)
    (w : Vector Word Config.stackDepth) : effect i { s with stack := w } = { effect i s with stack := w } := by
  cases i with
  | ret => exact absurd (.inl rfl) hi
  | call nnn => exact absurd (.inr ⟨nnn, rfl⟩) hi
  | seImm _ _ | sneImm _ _ | seReg _ _ | sneReg _ _ | skp _ | sknp _ => exact skipIf_withStack s _ w
  | _ => rfl

section
variable {s u : State}

/-- A call writes the same return address at the same index, the first dead one. -/
theorem SameButDeadEntries.effect_call (h : SameButDeadEntries s u) (nnn : BitVec 12) (hroom : s.sp.val ≠ 16) :
    SameButDeadEntries (effect (.call nnn) s) (effect (.call nnn) u) := by
  obtain ⟨hu, hlive⟩ := h
  have hlt : s.sp.val < 17 := s.sp.isLt
  have hsp : (Fin.ofNat 17 (s.sp.val + 1)).val = s.sp.val + 1 := Nat.mod_eq_of_lt (by omega)
  rw [hu]
  refine ⟨rfl, fun k hk => ?_⟩
  have hk : k.val < s.sp.val + 1 := hsp ▸ hk
  by_cases htop : s.sp.val = k.val
  · simp [effect, htop]
  · have hkeep := hlive k (by omega)
    simpa [effect, Vector.getElem_setIfInBounds, htop] using hkeep

/-- A return reads a live entry, and the entry it drops becomes dead in both states. -/
theorem SameButDeadEntries.effect_ret (h : SameButDeadEntries s u) (hne : s.sp.val ≠ 0) :
    SameButDeadEntries (effect .ret s) (effect .ret u) := by
  obtain ⟨hu, hlive⟩ := h
  have hlt : s.sp.val < 17 := s.sp.isLt
  have htopLt : s.sp.val - 1 < 16 := by omega
  have hsp : (Fin.ofNat 17 (s.sp.val - 1)).val = s.sp.val - 1 := Nat.mod_eq_of_lt (by omega)
  have htop : u.stack[s.sp.val - 1] = s.stack[s.sp.val - 1] := 
    hlive ⟨s.sp.val - 1, htopLt⟩ (Nat.sub_one_lt hne)
  rw [hu]
  refine ⟨?_, fun k hk => hlive k ?_⟩
  · simp [effect, List.getD, htopLt, htop]
  · have hk : k.val < s.sp.val - 1 := hsp ▸ hk
    omega

/-- The effect of an instruction that raises nothing keeps states alike but for dead entries. -/
theorem SameButDeadEntries.effect_of_noFault {i : Instr} (h : SameButDeadEntries s u) (hfault : instrFault i s = none) :
    SameButDeadEntries (effect i s) (effect i u) := by
  by_cases hi : i = .ret ∨ ∃ nnn, i = .call nnn
  · rcases hi with rfl | ⟨nnn, rfl⟩
    · exact h.effect_ret fun hempty => by simp [instrFault, hempty] at hfault
    · exact h.effect_call nnn fun hfull => by simp [instrFault, hfull] at hfault
  · obtain ⟨hsp, hstack⟩ : .sp ∉ changedParts i ∧ .stack ∉ changedParts i :=
      not_or.1 fun hmem => hi (ret_or_call_of_mem_changedParts hmem)
    exact h.map (effect_withStack hi s) (stack_eq_of_keeps (unchangedBut_effect i s _ hstack))
      (unchangedBut_effect i s _ hsp)

end

/-- Settles O47: both states raise the same exception, or run the same instruction, whose effect keeps them alike but
for dead entries. -/
theorem deadStackEntriesAreUnobservable : Obligations.DeadStackEntriesAreUnobservable := by
  intro s u h
  have hu : u = { s with stack := u.stack } := h.1
  have hstatus : u.status = s.status := by rw [hu]
  by_cases hrun : s.status = .running
  · rcases hfault : faultOf s with _ | info
    · obtain ⟨i, hd, hi, hstep⟩ := step_eq_effect hrun hfault
      obtain ⟨j, hd', _, hstep'⟩ := step_eq_effect (hstatus.trans hrun) (h.faultOf_eq.trans hfault)
      have hword : wordAtPc u = wordAtPc s := by rw [hu]; rfl
      rw [hword] at hd'
      cases hd.symm.trans hd'
      have hadvanced : SameButDeadEntries s.advancePc u.advancePc := h.map (fun _ => rfl) rfl rfl
      exact ⟨_, _, hstep, hstep', hadvanced.effect_of_noFault ((instrFault_advancePc i s).trans hi)⟩
    · exact ⟨_, _, step_eq_halted hrun hfault, step_eq_halted (hstatus.trans hrun) (h.faultOf_eq.trans hfault),
        h.map (f := fun s => s.setStatus (.halted info)) (fun _ => rfl) rfl rfl⟩
  · exact ⟨s, u, step_of_not_running hrun, step_of_not_running (hstatus ▸ hrun), h⟩

/-! ## The state after reset -/

theorem fontData_length : fontData.length = 80 := rfl

/-- Past the font every byte of memory is 0 after reset (10_state.md R34). -/
theorem Memory.initial_of_past_font {a : Nat} (h : 80 ≤ a) : Memory.initial a = 0 := by
  have hfont : ¬ a < fontBase := Nat.not_lt_zero a
  rw [Memory.initial, if_neg hfont]
  exact List.getD_eq_default _ _ (fontData_length ▸ h)

/-- A load keeps the keys (70_reset_and_hazards.md R138). -/
theorem key_of_load {image : List Byte} {s t : State} (h : load image s = some t) : t.key = s.key := by
  unfold load at h
  split at h <;> cases h
  rfl

/-- Settles O1: the registers, stack, keys and cells are replicated zeros, the font is `FONT_DATA`, byte by byte. -/
theorem resetLeavesTheStatedValues : Obligations.ResetLeavesTheStatedValues := by
  refine ⟨fun r => Vector.getElem_replicate r.isLt, rfl, rfl, rfl, fun k => Vector.getElem_replicate k.isLt, rfl, rfl,
    Display.cell_blank, fun k => Vector.getElem_replicate k.isLt, rfl, fun a hfont _ => ?_, rfl,
    fun image s t h k => ?_⟩
  · exact Memory.initial_of_past_font hfont
  · rw [State.keyDown, State.keyDown, key_of_load h]

/-- Settles O48: the empty list is canonical, and the engine runs. -/
theorem resetMeetsTheInvariant : Obligations.ResetMeetsTheInvariant :=
  inv_of_safe Memory.wf_nil nofun

end Sys2Proof.Machine
end

section
/-! PROOFS. Family 20_memory: the fetch and its fault, which instructions change memory, that canonical memories are
equal when they read alike, and that a stored word is fetched. -/

namespace Sys2Proof.Machine

/-! ## The fetch -/

/-- The first out-of-range address of a fetch whose second byte lies above 4095 (20_memory.md R49). -/
theorem max_pc_eq_of_past {pc : Nat} (h : pc + 1 > 4095) : max pc 4096 = if pc > 4095 then pc else pc + 1 := by
  split <;> omega

/-- Settles O7: the fetch gives the two bytes, and past the end the fault recorded is that of R117's first row. -/
theorem fetchPastTheEndOfMemoryFaults : Obligations.FetchPastTheEndOfMemoryFaults := by
  intro s
  refine ⟨fetchWord_eq_ok s, fun hrun hpast => ?_⟩
  have hfault := faultOf_of_past (Nat.not_le.2 hpast)
  rw [max_pc_eq_of_past hpast] at hfault
  exact ⟨_, step_eq_halted hrun hfault, rfl, unchangedBut_setStatus s _⟩

/-! ## The instructions that change memory -/

theorem store_of_mem_changedParts {i : Instr} (h : .memory ∈ changedParts i) :
    (∃ x, i = .ldBVx x) ∨ ∃ x, i = .ldMemVx x := by
  cases i <;> simp_all [changedParts]

/-- Bytes written at `a, a+1, …` change no other address (R40). -/
theorem Memory.bounds_of_read_writeBytes_ne {bs : List Byte} {m : Memory} {a p : Nat}
    (h : (m.writeBytes a bs).read p ≠ m.read p) : a ≤ p ∧ p < a + bs.length := by
  by_contra hout
  exact h ((Memory.read_writeBytes bs m a p).trans (if_neg hout))

/-- Settles O45: an exception writes no byte, and of the effects only the two stores do, where their bytes go. -/
theorem onlyTheTwoStoresChangeMemory : Obligations.OnlyTheTwoStoresChangeMemory := by
  intro i s t h a ha
  have hstore : .memory ∈ changedParts i := mem_changedParts_of_not_keeps h (fun hk => ha (hk a)) (by decide)
  rcases exec_next_cases h with ⟨kind, bad, _, rfl⟩ | ⟨_, rfl⟩
  · exact absurd rfl ha
  · rcases store_of_mem_changedParts hstore with ⟨x, rfl⟩ | ⟨x, rfl⟩
    · obtain ⟨hlow, hhigh⟩ := Memory.bounds_of_read_writeBytes_ne (bs := bcdDigits (s.getV x)) ha
      exact .inl ⟨x, rfl, hlow, Nat.le_of_lt_succ hhigh⟩
    · obtain ⟨hlow, hhigh⟩ := Memory.bounds_of_read_writeBytes_ne (bs := s.regsUpTo x) ha
      rw [State.regsUpTo_length] at hhigh
      exact .inr ⟨x, rfl, hlow, Nat.le_of_lt_succ hhigh⟩

/-! ## Canonical memories -/

section
variable {m : Memory}

/-- With addresses strictly rising, every entry is the byte its address reads as. -/
theorem Memory.read_of_mem (hm : m.Pairwise (fun c d => c.1 < d.1)) {c : Host.Cell} (hc : c ∈ m) :
    m.read c.1 = c.2 := by
  induction m with
  | nil => cases hc
  | cons d m ih =>
    obtain ⟨hd, hm⟩ := List.pairwise_cons.1 hm
    rcases List.mem_cons.1 hc with rfl | hc
    · exact if_pos rfl
    · exact (if_neg (Nat.ne_of_lt (hd c hc))).trans (ih hm hc)

/-- An address that reads as something other than its reset contents is listed. -/
theorem Memory.mem_of_read_ne_initial {a : Nat} (h : m.read a ≠ Memory.initial a) : (a, m.read a) ∈ m := by
  induction m with
  | nil => exact absurd rfl h
  | cons c m ih =>
    rw [Memory.read] at h ⊢
    split_ifs at h ⊢ with hc
    · exact hc ▸ List.mem_cons_self
    · exact List.mem_cons_of_mem _ (ih h)

/-- The entries of a canonical memory are given by what it reads as: the addresses with other than reset contents. -/
theorem Memory.wf.mem_iff (h : m.wf) (c : Host.Cell) :
    c ∈ m ↔ m.read c.1 = c.2 ∧ c.2 ≠ Memory.initial c.1 := by
  obtain ⟨hrising, hlisted⟩ := h
  constructor
  · exact fun hc => ⟨Memory.read_of_mem hrising hc, (hlisted c hc).2⟩
  · rintro ⟨hread, hne⟩
    have hmem : (c.1, m.read c.1) ∈ m := Memory.mem_of_read_ne_initial (hread ▸ hne)
    rwa [hread] at hmem

end

/-- Lists of cells with strictly rising addresses and the same entries are the same list. -/
theorem Memory.eq_of_rising_of_mem_iff {m m' : Memory} (hm : m.Pairwise (fun c d => c.1 < d.1))
    (hm' : m'.Pairwise (fun c d => c.1 < d.1)) (h : ∀ c, c ∈ m ↔ c ∈ m') : m = m' :=
  have : Std.Irrefl fun c d : Host.Cell => c.1 < d.1 := ⟨fun c => Nat.lt_irrefl c.1⟩
  have : Std.Antisymm fun c d : Host.Cell => c.1 < d.1 := ⟨fun _ _ hcd hdc => absurd hcd (Nat.lt_asymm hdc)⟩
  List.Pairwise.eq_of_mem_iff hm hm' h

/-- Settles O51: what a canonical memory reads as gives its entries, and their order is that of the addresses. -/
theorem canonicalMemoriesThatReadAlikeAreEqual : Obligations.CanonicalMemoriesThatReadAlikeAreEqual := by
  intro m m' hm hm' hread
  refine Memory.eq_of_rising_of_mem_iff hm.1 hm'.1 fun c => ?_
  rw [hm.mem_iff, hm'.mem_iff, hread]

/-! ## A stored word is fetched -/

section
variable {s : State}

/-- A step in status `Running` executes the word at `pc` on the advanced state (30_encoding.md R60, R62). -/
theorem step_eq_exec {i : Instr} (hrun : s.status = .running) (hpc : s.pc.toNat + 1 ≤ 4095)
    (hd : decodeWord (wordAtPc s) = .ok i) : step s = exec i s.advancePc := by
  rw [step_of_running hrun, runInstruction_of_word hpc, runWord_of_ok hd]

/-- A bulk store whose bytes fit raises nothing (44_index_memory.md R113). -/
theorem exec_ldMemVx_of_fits {x : Reg} (h : s.I.toNat + x.val ≤ 4095) :
    exec (.ldMemVx x) s = .next (effect (.ldMemVx x) s) :=
  exec_eq_effect (if_neg (Nat.not_lt.2 h))

/-- After a bulk store the byte at `I + r` is `V[r]` (R113). -/
theorem read_effect_ldMemVx {x r : Reg} (h : r ≤ x) :
    (effect (.ldMemVx x) s).mem.read (s.I.toNat + r.val) = s.getV r := by
  have hr : r.val < x.val + 1 := Nat.lt_succ_of_le h
  have hmem : (effect (.ldMemVx x) s).mem = s.mem.writeBytes s.I.toNat (s.regsUpTo x) := rfl
  rw [hmem, Memory.read_writeBytes, State.regsUpTo_length, if_pos (by omega), Nat.add_sub_cancel_left,
    State.regsUpTo_getD s x r h]

end

/-- Settles O40: the store leaves `V[0]` at `I` and `V[1]` at `I + 1`, and a step at `I` executes that word. -/
theorem aStoredWordIsFetchedNext : Obligations.AStoredWordIsFetchedNext := by
  intro x s t hx hfits h
  cases (exec_ldMemVx_of_fits hfits).symm.trans h
  have hword : wordAtPc { effect (.ldMemVx x) s with pc := s.I } = s.getV 0 ++ s.getV 1 :=
    congrArg₂ (· ++ ·) (read_effect_ldMemVx (Fin.zero_le x)) (read_effect_ldMemVx (r := 1) hx)
  refine ⟨hword, fun i hrun hd => ?_⟩
  have hpc : s.I.toNat + 1 ≤ 4095 := by omega
  exact step_eq_exec (s := { effect (.ldMemVx x) s with pc := s.I }) hrun hpc (hword ▸ hd)

end Sys2Proof.Machine
end

section
/-! PROOFS. Family 30_encoding: the encoding of a well-formed instruction decodes to it, a decoded instruction is well
formed, the words that decode to nothing are those of R65's list, and a step executes the decoded instruction. -/

namespace Sys2Proof

/-! ## The encoding of an instruction decodes to it (R59, R63) -/

/-- Format by format, the fields of the encoding are the operands, and the fixed digits select the constructor. -/
theorem decodeWord_encode {i : Instr} (h : i.WellFormed) : decodeWord (encode i) = .ok i := by
  cases i with
  | cls | ret => rfl
  | jp nnn | call nnn | ldI nnn | jpV0 nnn => simp [encode, decodeWord, fields_digitAddr]
  | seImm x nn | sneImm x nn | ldImm x nn | addImm x nn | rnd x nn =>
    simp [encode, decodeWord, fields_digitsByte]
  | seReg x y => simp [encode, decodeWord, decodeGroup5, fields_digits]
  | ldReg x y | orReg x y | andReg x y | xorReg x y | addReg x y | subReg x y | shr x y | subnReg x y | shl x y =>
    simp [encode, decodeWord, decodeGroup8, fields_digits]
  | sneReg x y => simp [encode, decodeWord, decodeGroup9, fields_digits]
  | drw x y n =>
    have hn : n ≤ 15 := of_decide_eq_true h
    simp [encode, decodeWord, fields_digits, Nat.mod_eq_of_lt (Nat.lt_succ_of_le hn)]
  | skp x | sknp x => simp [encode, decodeWord, decodeGroupE, fields_digitsByte]
  | ldVxDt x | ldVxK x | ldDtVx x | ldStVx x | addIVx x | ldFVx x | ldBVx x | ldMemVx x | ldVxMem x =>
    simp [encode, decodeWord, decodeGroupF, fields_digitsByte]

/-! ## A decoded instruction is well formed (R58) -/

/-- The row count of a decoded `DXYN` is the value of a 4-bit field. -/
theorem rowCount_le_of_decodeWord {w : Word} {x y : Reg} {n : Nat} (h : decodeWord w = .ok (.drw x y n)) : n ≤ 15 := by
  have hop : fieldOp w = 0xD#4 := encode_of_decodeWord h ▸ (fields_digits 0xD#4 (BitVec.ofNat 4 n) x y).1
  have hn := (fieldN w).isLt
  simp only [decodeWord, hop] at h
  cases h
  omega

theorem wellFormed_of_decodeWord {w : Word} {i : Instr} (h : decodeWord w = .ok i) : i.WellFormed := by
  cases i with
  | drw x y n => exact decide_eq_true (rowCount_le_of_decodeWord h)
  | _ => rfl

/-! ## The words that decode, group by group (R64, R65) -/

section
variable (w : Word)

/-- The opcode digit is what R65's list divides the words by. -/
theorem toNat_fieldOp_eq_div : (fieldOp w).toNat = w.toNat / 4096 := by
  rw [toNat_fieldOp, Nat.mod_eq_of_lt (by have := w.isLt; omega)]

theorem decodeGroup0_ok_iff : (∃ i, decodeGroup0 w = .ok i) ↔ w.toNat = 0x00E0 ∨ w.toNat = 0x00EE := by
  unfold decodeGroup0
  split_ifs <;> simp_all [← BitVec.toNat_inj]

theorem decodeGroup5_ok_iff : (∃ i, decodeGroup5 w = .ok i) ↔ w.toNat % 16 = 0 := by
  rw [← toNat_fieldN]
  unfold decodeGroup5
  split <;> simp_all

theorem decodeGroup8_ok_iff :
    (∃ i, decodeGroup8 w = .ok i) ↔ w.toNat % 16 ∉ [0x8, 0x9, 0xA, 0xB, 0xC, 0xD, 0xF] := by
  have hlt := (fieldN w).isLt
  rw [← toNat_fieldN]
  unfold decodeGroup8
  split <;> rename_i hn
  case h_10 =>
    simp only [reduceCtorEq, exists_false, false_iff, not_not, imp_false, List.mem_cons, List.not_mem_nil,
      or_false] at *
    omega
  all_goals simp [hn]

theorem decodeGroup9_ok_iff : (∃ i, decodeGroup9 w = .ok i) ↔ w.toNat % 16 = 0 := by
  rw [← toNat_fieldN]
  unfold decodeGroup9
  split <;> simp_all

theorem decodeGroupE_ok_iff : (∃ i, decodeGroupE w = .ok i) ↔ w.toNat % 256 ∈ [0x9E, 0xA1] := by
  rw [← toNat_fieldNN]
  unfold decodeGroupE
  split_ifs <;> simp_all [← BitVec.toNat_inj]

theorem decodeGroupF_ok_iff :
    (∃ i, decodeGroupF w = .ok i) ↔
      w.toNat % 256 ∈ [0x07, 0x0A, 0x15, 0x18, 0x1E, 0x29, 0x33, 0x55, 0x65] := by
  rw [← toNat_fieldNN]
  unfold decodeGroupF
  split_ifs <;> simp_all [← BitVec.toNat_inj]
end

end Sys2Proof

namespace Sys2Proof.Machine

/-- R64 and R65 divide the words alike: group by group, the list has the words the group does not decode. -/
theorem decodeWord_ok_iff (w : Word) : (∃ i, decodeWord w = .ok i) ↔ ¬ IllegalWord w := by
  have hlt := w.isLt
  unfold decodeWord
  rw [toNat_fieldOp_eq_div]
  split <;> rename_i hop
  case h_1 =>
    simp only [decodeGroup0_ok_iff, IllegalWord]
    omega
  case h_6 => simp [decodeGroup5_ok_iff, IllegalWord, hop]
  case h_9 => simp [decodeGroup8_ok_iff, IllegalWord, hop]
  case h_10 => simp [decodeGroup9_ok_iff, IllegalWord, hop]
  case h_15 => simp [decodeGroupE_ok_iff, IllegalWord, hop, -List.mem_cons]
  case h_16 =>
    simp only [imp_false] at *
    have hop : w.toNat / 4096 = 0xF := by omega
    simp [decodeGroupF_ok_iff, IllegalWord, hop, -List.mem_cons]
  all_goals simp [IllegalWord, hop]

/-! ## The obligations -/

/-- Settles O2, by the fields of each of R59's formats. -/
theorem decodingAnEncodedInstructionGivesItBack : Obligations.DecodingAnEncodedInstructionGivesItBack :=
  fun _ => decodeWord_encode

/-- Settles O3: the word is put together from the fields, and the row count is a 4-bit field. -/
theorem aDecodedWordIsTheEncodingOfItsInstruction : Obligations.ADecodedWordIsTheEncodingOfItsInstruction :=
  fun _ _ h => ⟨wellFormed_of_decodeWord h, encode_of_decodeWord h⟩

/-- Settles O4: the groups accept the words outside R65's list, and a step at one of the list records its fault. -/
theorem illegalWordsRaiseDecodeError : Obligations.IllegalWordsRaiseDecodeError := by
  refine ⟨decodeWord_ok_iff, fun s hrun hpc hillegal => ?_⟩
  rcases hd : decodeWord (wordAtPc s) with e | i
  · exact ⟨_, step_eq_halted hrun (faultOf_of_error hpc hd), rfl, unchangedBut_setStatus s _⟩
  · exact absurd hillegal ((decodeWord_ok_iff _).1 ⟨i, hd⟩)

/-- Settles O5: the decoder evaluates each word to its instruction. -/
theorem sampleWordsDecodeAsTheirPatternsSay : Obligations.SampleWordsDecodeAsTheirPatternsSay :=
  ⟨rfl, rfl, rfl, rfl, rfl, rfl, rfl, rfl⟩

/-- Settles O6: the fetch gives the word at `pc`, and its instruction runs on the advanced state. -/
theorem stepExecutesTheDecodedInstruction : Obligations.StepExecutesTheDecodedInstruction :=
  fun _ _ => step_eq_exec

end Sys2Proof.Machine
end

section
/-! PROOFS. Family 40_alu: the register loads, the arithmetic with and without a flag, the shifts and the random byte,
each with its value and its frame. -/

namespace Sys2Proof.Machine

/-! ## A register write without a flag (40_alu.md R73 to R78) -/

theorem State.getV_setV_self (s : State) (x : Reg) (b : Byte) : (s.setV x b).getV x = b := by
  rw [State.getV_setV, if_pos rfl]

/-- An instruction whose meaning is one register write leaves that value there and changes nothing else. -/
theorem exec_of_setV {i : Instr} {x : Reg} {b : Byte} {s : State} (hexec : exec i s = .next (s.setV x b)) :
    ∃ t, exec i s = .next t ∧ t.getV x = b ∧ RegsUnchangedBut [x] s t ∧ UnchangedBut [.regs] s t :=
  ⟨_, hexec, s.getV_setV_self x b, regsUnchangedBut_setV s x b, unchangedBut_setV s x b⟩

/-- `exec_of_setV` with the written value given by its bits. -/
theorem exec_of_setV_bits {i : Instr} {x : Reg} {b : Byte} {s : State} {bit : Nat → Bool}
    (hexec : exec i s = .next (s.setV x b)) (hbits : ∀ k, b.getLsbD k = bit k) :
    ∃ t, exec i s = .next t ∧ (∀ k < 8, (t.getV x).getLsbD k = bit k) ∧
      RegsUnchangedBut [x] s t ∧ UnchangedBut [.regs] s t := by
  obtain ⟨t, ht, hx, hframe⟩ := exec_of_setV hexec
  exact ⟨t, ht, fun k _ => hx ▸ hbits k, hframe⟩

/-- Settles O10: the meaning is the write of the immediate. -/
theorem loadImmediateWritesItsRegister : Obligations.LoadImmediateWritesItsRegister :=
  fun x nn _ => ⟨decodeWord_encode (i := .ldImm x nn) rfl, exec_of_setV rfl⟩

/-- Settles O11: the meaning is the write of the sum of two bytes. -/
theorem addImmediateWrapsWithoutAFlag : Obligations.AddImmediateWrapsWithoutAFlag := by
  intro x nn s
  obtain ⟨t, ht, hx, hframe⟩ := exec_of_setV (i := .addImm x nn) (s := s) rfl
  exact ⟨decodeWord_encode (i := .addImm x nn) rfl, t, ht, hx ▸ BitVec.toNat_add _ _, hframe⟩

/-- Settles O12: the meaning is the write of the source's value. -/
theorem copyWritesTheSourceValue : Obligations.CopyWritesTheSourceValue :=
  fun x y _ => ⟨decodeWord_encode (i := .ldReg x y) rfl, exec_of_setV rfl⟩

/-- Settles O13: each meaning is the write of the operation on two bytes, which acts on each bit. -/
theorem bitwiseOperationsActOnEachBit : Obligations.BitwiseOperationsActOnEachBit :=
  fun x y _ =>
    ⟨⟨decodeWord_encode (i := .orReg x y) rfl, exec_of_setV_bits rfl fun _ => BitVec.getLsbD_or⟩,
     ⟨decodeWord_encode (i := .andReg x y) rfl, exec_of_setV_bits rfl fun _ => BitVec.getLsbD_and⟩,
     ⟨decodeWord_encode (i := .xorReg x y) rfl, exec_of_setV_bits rfl fun _ => BitVec.getLsbD_xor⟩⟩

/-! ## The values of the flags (40_alu.md R79 to R83) -/

theorem toNat_flagByte (flag : Bool) : (flagByte flag).toNat = flag.toNat := by
  cases flag <;> rfl

theorem toNat_flagByte_decide (p : Prop) [Decidable p] : (flagByte (decide p)).toNat = if p then 1 else 0 := by
  rw [toNat_flagByte, Bool.toNat, Bool.cond_decide]

theorem toNat_flagByte_getLsbD (a : Byte) (k : Nat) : (flagByte (a.getLsbD k)).toNat = a.toNat / 2 ^ k % 2 := by
  rw [toNat_flagByte, ← BitVec.testBit_toNat, Nat.toNat_testBit]

theorem toNat_flagByte_shiftedOutLeft (a : Byte) : (flagByte (shiftedOutLeft a)).toNat = a.toNat / 128 := by
  have ha := a.isLt
  rw [shiftedOutLeft, toNat_flagByte_getLsbD]
  omega

theorem toNat_flagByte_shiftedOutRight (a : Byte) : (flagByte (shiftedOutRight a)).toNat = a.toNat % 2 := by
  rw [shiftedOutRight, toNat_flagByte_getLsbD, pow_zero, Nat.div_one]

/-! ## The values of the results (40_alu.md R80 to R83) -/

theorem toNat_byte_sub (a b : Byte) : (a - b).toNat = (a.toNat + 256 - b.toNat) % 256 := by
  have hb := b.isLt
  rw [BitVec.toNat_sub]
  omega

theorem toNat_byte_shiftRight_one (a : Byte) : (a >>> 1).toNat = a.toNat / 2 := by
  rw [BitVec.toNat_ushiftRight, Nat.shiftRight_eq_div_pow, pow_one]

theorem toNat_byte_shiftLeft_one (a : Byte) : (a <<< 1).toNat = 2 * a.toNat % 256 := by
  rw [BitVec.toNat_shiftLeft, Nat.shiftLeft_eq, pow_one, Nat.mul_comm]

/-! ## A result and a flag (40_alu.md R79 to R83, R85) -/

/-- An instruction whose meaning is a flag write and then a result write leaves the result at the destination, VF
included, the flag at VF when that is another register, and changes nothing else. -/
theorem exec_of_writeFlagThenResult {i : Instr} {x : Reg} {flag : Bool} {b : Byte} {s : State} {result flagValue : Nat}
    (hexec : exec i s = .next (s.writeFlagThenResult flag x b)) (hresult : b.toNat = result)
    (hflag : (flagByte flag).toNat = flagValue) :
    ∃ t, exec i s = .next t ∧ (t.getV x).toNat = result ∧ (x ≠ 15 → (t.getV 15).toNat = flagValue) ∧
      RegsUnchangedBut [x, 15] s t ∧ UnchangedBut [.regs] s t := by
  refine ⟨_, hexec, ?_, fun hx => ?_, regsUnchangedBut_writeFlagThenResult s flag x b,
    unchangedBut_writeFlagThenResult s flag x b⟩
  · rw [State.getV_writeFlagThenResult, if_pos rfl, hresult]
  · rw [State.getV_writeFlagThenResult, if_neg hx.symm, if_pos (show 15 = vf from rfl), hflag]

/-- Settles O14: the sum of two bytes, and the carry as the flag. -/
theorem addSetsVfToTheCarry : Obligations.AddSetsVfToTheCarry :=
  fun x y _ => ⟨decodeWord_encode (i := .addReg x y) rfl,
    exec_of_writeFlagThenResult rfl (BitVec.toNat_add _ _) (toNat_flagByte_decide _)⟩

/-- Settles O15: the difference of two bytes, and no borrow as the flag. -/
theorem subtractSetsVfToNoBorrow : Obligations.SubtractSetsVfToNoBorrow :=
  fun x y _ => ⟨decodeWord_encode (i := .subReg x y) rfl,
    exec_of_writeFlagThenResult rfl (toNat_byte_sub _ _) (toNat_flagByte_decide _)⟩

/-- Settles O16: O15 with the operands exchanged. -/
theorem reverseSubtractSetsVfToNoBorrow : Obligations.ReverseSubtractSetsVfToNoBorrow :=
  fun x y _ => ⟨decodeWord_encode (i := .subnReg x y) rfl,
    exec_of_writeFlagThenResult rfl (toNat_byte_sub _ _) (toNat_flagByte_decide _)⟩

/-- Settles O17: the shifted byte, and the bit moved out as the flag; no operand is read from `y`. -/
theorem shiftRightMovesBit0ToVf : Obligations.ShiftRightMovesBit0ToVf :=
  fun x y _ => ⟨decodeWord_encode (i := .shr x y) rfl,
    exec_of_writeFlagThenResult rfl (toNat_byte_shiftRight_one _) (toNat_flagByte_shiftedOutRight _)⟩

/-- Settles O18: the shifted byte, and the bit moved out as the flag; no operand is read from `y`. -/
theorem shiftLeftMovesBit7ToVf : Obligations.ShiftLeftMovesBit7ToVf :=
  fun x y _ => ⟨decodeWord_encode (i := .shl x y) rfl,
    exec_of_writeFlagThenResult rfl (toNat_byte_shiftLeft_one _) (toNat_flagByte_shiftedOutLeft _)⟩

/-! ## The random byte (40_alu.md R86) -/

/-- Settles O19: a draw, which writes no register, and then the write of the masked byte. -/
theorem randomMasksOneFreshDraw : Obligations.RandomMasksOneFreshDraw := by
  intro x nn s
  refine ⟨decodeWord_encode (i := .rnd x nn) rfl, effect (.rnd x nn) s, rfl, fun k _ => ?_, rfl,
    regsUnchangedBut_setV s.draw8.2 x _, (unchangedBut_effect (.rnd x nn) s).mono (by simp [changedParts])⟩
  rw [effect, State.getV_setV_self, BitVec.getLsbD_and]
  rfl

end Sys2Proof.Machine
end

section
/-! PROOFS. Family 41_control: the jumps, the call and the return with their faults, a call followed by a return, and
the skips on registers. -/

namespace Sys2Proof.Machine

/-! ## An instruction that raises an exception (60_exceptions.md R117, R118) -/

section
variable {i : Instr} {s : State} {kind : FaultKind} {bad : Option Nat}

/-- An instruction to which R117's table gives an exception raises it. -/
theorem exec_eq_raise (h : instrFault i s = some (kind, bad)) : exec i s = raise kind i bad s := by
  rcases exec_raisesOrCompletes i s with ⟨kind', bad', hfault, hexec⟩ | ⟨hnone, _⟩
  · cases h.symm.trans hfault
    exact hexec
  · cases h.symm.trans hnone

/-- The state that a raised exception leaves is that of R118. -/
theorem exec_raised (h : instrFault i s = some (kind, bad)) :
    ∃ t, exec i s = .next t ∧ Raised kind (encode i) bad s t :=
  ⟨_, exec_eq_raise h, rfl, rfl, unchangedBut_takeException s _ _ _ _⟩

end

/-! ## Jumps (41_control.md R87, R90) -/

/-- Settles O20: the meaning is the write of the zero-extended address to `pc`. -/
theorem jumpGoesToItsAddress : Obligations.JumpGoesToItsAddress :=
  fun nnn s => ⟨decodeWord_encode (i := .jp nnn) rfl, _, rfl, toNat_addrOperand nnn, unchangedBut_setPc s _⟩

/-- Settles O24: the meaning is the write of the sum of two words to `pc`. -/
theorem jumpWithOffsetAddsV0 : Obligations.JumpWithOffsetAddsV0 := by
  intro nnn s
  have hsum : (effect (.jpV0 nnn) s).pc = BitVec.ofNat 16 (nnn.toNat + (s.getV 0).toNat) := addrOperand_add nnn _
  exact ⟨decodeWord_encode (i := .jpV0 nnn) rfl, effect (.jpV0 nnn) s, rfl, hsum ▸ BitVec.toNat_ofNat _ _,
    unchangedBut_effect (.jpV0 nnn) s⟩

/-! ## Call and return (41_control.md R88, R89) -/

/-- A call writes the entry at the old `sp`, and no other. -/
theorem stack_effect_call (nnn : BitVec 12) (s : State) (k : Fin 16) :
    (effect (.call nnn) s).stack[k] = if k.val = s.sp.val then s.pc else s.stack[k] := by
  simp only [effect, Fin.getElem_fin, Vector.getElem_setIfInBounds, eq_comm]

section
variable {s : State} {k : Fin 16}

theorem sp_effect_call (nnn : BitVec 12) (h : s.sp.val < 16) : (effect (.call nnn) s).sp.val = s.sp.val + 1 :=
  Nat.mod_eq_of_lt (Nat.succ_lt_succ h)

theorem sp_effect_ret (h : s.sp.val = k.val + 1) : (effect .ret s).sp.val = k.val := by
  have hk := k.isLt
  show (s.sp.val - 1) % 17 = k.val
  omega

/-- A return goes to the top entry. -/
theorem pc_effect_ret (h : s.sp.val = k.val + 1) : (effect .ret s).pc = s.stack[k] := by
  simp [effect, List.getD, h]

end

/-- Settles O21: with room the call leaves its effect, and with a full stack the exception of R117's table. -/
theorem callPushesOrOverflows : Obligations.CallPushesOrOverflows := by
  intro nnn s
  refine ⟨decodeWord_encode (i := .call nnn) rfl, fun hroom => ?_, fun hfull => exec_raised (if_pos hfull)⟩
  exact ⟨_, exec_call_of_room hroom.ne, toNat_addrOperand nnn, sp_effect_call nnn hroom, stack_effect_call nnn s,
    (unchangedBut_effect (.call nnn) s).mono (by simp [changedParts])⟩

/-- Settles O22: with a live entry the return leaves its effect, and with none the exception of R117's table. -/
theorem returnPopsOrUnderflows : Obligations.ReturnPopsOrUnderflows := by
  refine ⟨rfl, fun s => ⟨fun k hlive => ?_, fun hempty => exec_raised (i := .ret) (if_pos hempty)⟩⟩
  exact ⟨_, exec_ret_of_live (hlive ▸ Nat.succ_ne_zero _), pc_effect_ret hlive, sp_effect_ret hlive,
    (unchangedBut_effect .ret s).mono (by simp [changedParts])⟩

/-- Settles O23: the entry that the return pops is the one at the caller's `sp`, where the call wrote its `pc`. -/
theorem callThenReturnRestoresPc : Obligations.CallThenReturnRestoresPc := by
  intro nnn s t u hroom hcall hsp hstack
  cases (exec_call_of_room hroom.ne).symm.trans hcall
  have hentry (k : Fin 16) : u.stack[k] = if k.val = s.sp.val then s.pc else s.stack[k] :=
    (hstack k).trans (stack_effect_call nnn s k)
  let top : Fin 16 := ⟨s.sp.val, hroom⟩
  have hlive : u.sp.val = top.val + 1 := hsp ▸ sp_effect_call nnn hroom
  refine ⟨_, exec_ret_of_live (hlive ▸ Nat.succ_ne_zero _), ?_, Fin.ext (sp_effect_ret hlive), fun k hk => ?_⟩
  · rw [pc_effect_ret hlive, hentry, if_pos rfl]
  · exact (hentry k).trans (if_neg hk.ne)

/-! ## Skips (41_control.md R91 to R94) -/

/-- An instruction whose meaning is a skip raises `pc` by 2 when its condition holds, and changes nothing else. -/
theorem exec_of_skipIf {i : Instr} {c : Bool} {p : Prop} [Decidable p] {s : State}
    (hexec : exec i s = .next (s.skipIf c)) (hc : c = true ↔ p) :
    ∃ t, exec i s = .next t ∧ t.pc = (if p then s.pc + 2 else s.pc) ∧ UnchangedBut [.pc] s t :=
  ⟨_, hexec, by rw [State.skipIf_eq]; exact if_congr hc rfl rfl, unchangedBut_skipIf s c⟩

/-- Settles O25: each meaning is a skip on the comparison of the register with the immediate. -/
theorem immediateSkipsCompareWithTheRegister : Obligations.ImmediateSkipsCompareWithTheRegister :=
  fun x nn _ =>
    ⟨⟨decodeWord_encode (i := .seImm x nn) rfl, exec_of_skipIf rfl beq_iff_eq⟩,
     ⟨decodeWord_encode (i := .sneImm x nn) rfl, exec_of_skipIf rfl bne_iff_ne⟩⟩

/-- The words of groups 5 and 9 with a nonzero low nibble are of R65's list. -/
theorem illegalWord_of_lowNibble_ne_zero {op n : BitVec 4} (x y : Reg) (hop : op = 0x5 ∨ op = 0x9) (hn : n ≠ 0) :
    IllegalWord (op ++ regBits x ++ regBits y ++ n) := by
  obtain ⟨hfieldOp, _, _, hfieldN⟩ := fields_digits op n x y
  have hnibble : (op ++ regBits x ++ regBits y ++ n : Word).toNat % 16 ≠ 0 := by
    rw [← toNat_fieldN, hfieldN]
    exact fun h => hn (BitVec.eq_of_toNat_eq h)
  have hgroup : (op ++ regBits x ++ regBits y ++ n : Word).toNat / 4096 = op.toNat := by
    rw [← toNat_fieldOp_eq_div, hfieldOp]
  rcases hop with rfl | rfl
  · exact .inr (.inl ⟨hgroup, hnibble⟩)
  · exact .inr (.inr (.inr (.inl ⟨hgroup, hnibble⟩)))

theorem decodeWord_ne_ok_of_illegal {w : Word} (h : IllegalWord w) (i : Instr) : decodeWord w ≠ .ok i :=
  fun hd => (decodeWord_ok_iff w).1 ⟨i, hd⟩ h

/-- Settles O26: each meaning is a skip on the comparison of two registers, and the other words of the two groups are of
R65's list. -/
theorem registerSkipsCompareTwoRegisters : Obligations.RegisterSkipsCompareTwoRegisters :=
  fun x y _ =>
    ⟨⟨decodeWord_encode (i := .seReg x y) rfl, exec_of_skipIf rfl beq_iff_eq⟩,
     ⟨decodeWord_encode (i := .sneReg x y) rfl, exec_of_skipIf rfl bne_iff_ne⟩,
     fun _ hn i =>
      ⟨decodeWord_ne_ok_of_illegal (illegalWord_of_lowNibble_ne_zero x y (.inl rfl) hn) i,
       decodeWord_ne_ok_of_illegal (illegalWord_of_lowNibble_ne_zero x y (.inr rfl) hn) i⟩⟩

end Sys2Proof.Machine
end

section
/-! PROOFS. Family 42_display: the clear, the draw with its collision flag and its fault, and two draws of one
sprite. -/

namespace Sys2Proof.Machine

/-! ## Clear (42_display.md R95) -/

/-- Settles O27: the meaning is the write of the blank display. -/
theorem clearZeroesEveryCell : Obligations.ClearZeroesEveryCell :=
  ⟨rfl, fun s => ⟨_, rfl, Display.cell_blank, unchangedBut_setDisp s _⟩⟩

/-! ## Inverting a set of cells -/

/-- The pair `q` is the display and `hit` of `p` after one set sprite bit has landed on each cell of `cells` and on no
other: these cells are inverted, and `hit` is set when one of them was set. -/
structure Inverts (cells : Fin 32 → Fin 64 → Prop) (p q : Display × Bool) : Prop where
  cell (R : Fin 32) (C : Fin 64) : q.1.cell R C = true ↔ Xor (p.1.cell R C = true) (cells R C)
  hit : q.2 = true ↔ p.2 = true ∨ ∃ R C, p.1.cell R C = true ∧ cells R C

section
variable {A B : Fin 32 → Fin 64 → Prop} {p q q' u : Display × Bool}

theorem Inverts.congr (h : Inverts A p q) (hAB : ∀ R C, A R C ↔ B R C) : Inverts B p q := by
  have hcells : A = B := funext fun R => funext fun C => propext (hAB R C)
  exact hcells ▸ h

theorem inverts_refl : Inverts (fun _ _ => False) p p := by
  constructor <;> simp [xor_def]

/-- Bits that land on different cells do not meet each other: the later ones find the cells as they were before. -/
theorem Inverts.trans (hA : Inverts A p q) (hB : Inverts B q u) (hdisjoint : ∀ R C, A R C → ¬ B R C) :
    Inverts (fun R C => A R C ∨ B R C) p u := by
  constructor
  · intro R C
    have hRC := hdisjoint R C
    rw [hB.cell, hA.cell, xor_def, xor_def, xor_def]
    tauto
  · have hmet (R : Fin 32) (C : Fin 64) : q.1.cell R C = true ∧ B R C ↔ p.1.cell R C = true ∧ B R C := by
      have hRC := hdisjoint R C
      rw [hA.cell, xor_def]
      tauto
    simp only [hB.hit, hA.hit, hmet, and_or_left, exists_or, or_assoc]

/-- Inverting the same cells again gives the display back. -/
theorem Inverts.cell_of_twice (h : Inverts A p q) (hq : q'.1 = q.1) (h' : Inverts A q' u) (R : Fin 32) (C : Fin 64) :
    u.1.cell R C = p.1.cell R C := by
  rw [Bool.eq_iff_iff, h'.cell, hq, h.cell, xor_def, xor_def]
  tauto

/-- The cells that the second inversion finds set are those that the first found at 0. -/
theorem Inverts.cell_and_iff (h : Inverts A p q) (R : Fin 32) (C : Fin 64) :
    q.1.cell R C = true ∧ A R C ↔ A R C ∧ p.1.cell R C = false := by
  rw [h.cell, xor_def, Bool.eq_false_iff]
  tauto

end

/-! ## The cells that a sprite's bits land on (42_display.md R96) -/

/-- The bit `bit` is set, and at display row `r` and column `c` it lands on the cell (R, C). -/
def BitLands (bit : Bool) (r c : Nat) (R : Fin 32) (C : Fin 64) : Prop :=
  bit = true ∧ R.val = r % 32 ∧ C.val = c % 64

/-- A bit of sprite row `bits` lands on the cell, of the `left` columns from `col` on. -/
def RowLands (bits : Byte) (r cx col left : Nat) (R : Fin 32) (C : Fin 64) : Prop :=
  ∃ k < left, BitLands (bits.getLsbD (7 - (col + k))) r (cx + (col + k)) R C

/-- A bit of the sprite lands on the cell, its rows drawn from display row `r` down. -/
def RowsLand (cx r : Nat) (rows : List Byte) (R : Fin 32) (C : Fin 64) : Prop :=
  ∃ k < rows.length, RowLands (rows.getD k 0) (r + k) cx 0 8 R C

section
variable {R : Fin 32} {C : Fin 64}

theorem rowLands_succ (bits : Byte) (r cx col left : Nat) :
    RowLands bits r cx col (left + 1) R C ↔
      BitLands (bits.getLsbD (7 - col)) r (cx + col) R C ∨ RowLands bits r cx (col + 1) left R C := by
  simp only [RowLands, Nat.exists_lt_succ_left, Nat.add_zero, Nat.add_assoc, Nat.add_comm 1]

theorem rowsLand_cons (cx r : Nat) (bits : Byte) (rest : List Byte) :
    RowsLand cx r (bits :: rest) R C ↔ RowLands bits r cx 0 8 R C ∨ RowsLand cx (r + 1) rest R C := by
  simp only [RowsLand, List.length_cons, Nat.exists_lt_succ_left, List.getD_cons_zero, List.getD_cons_succ,
    Nat.add_zero, Nat.add_assoc, Nat.add_comm 1]

theorem RowLands.row_eq {bits : Byte} {r cx col left : Nat} (h : RowLands bits r cx col left R C) :
    R.val = r % 32 := by
  obtain ⟨_, _, _, hR, _⟩ := h
  exact hR

end

/-- The bit of one pixel inverts the cell it lands on, or none when it is 0. -/
theorem inverts_drawPixel (bit : Bool) (r c : Nat) (p : Display × Bool) :
    Inverts (BitLands bit r c) p (if bit then drawPixel r c p else p) := by
  cases bit with
  | false => exact inverts_refl.congr fun _ _ => by simp [BitLands]
  | true =>
    obtain ⟨hcell, hhit⟩ := drawPixel_spec r c p
    constructor
    · intro R C
      rw [if_pos rfl, hcell, BitLands, xor_def]
      split_ifs with hRC <;> simp [hRC]
    · rw [if_pos rfl, hhit]
      simp only [BitLands, true_and, and_comm, and_assoc]

/-- At most 64 columns land on different columns of the display. -/
theorem inverts_drawRow (bits : Byte) (r cx : Nat) {col left : Nat} (hleft : left ≤ 64) (p : Display × Bool) :
    Inverts (RowLands bits r cx col left) p (drawRow bits r cx col left p) := by
  induction left generalizing col p with
  | zero => exact inverts_refl.congr fun _ _ => by simp [RowLands]
  | succ left ih =>
    have hrest := ih (col := col + 1) (by omega)
    refine ((inverts_drawPixel _ r (cx + col) p).trans (hrest _) ?_).congr fun _ _ => (rowLands_succ ..).symm
    rintro R C ⟨_, _, hC⟩ ⟨k, hk, _, _, hC'⟩
    omega

/-- At most 32 rows land on different rows of the display. -/
theorem inverts_drawRows (cx r : Nat) {rows : List Byte} (hrows : rows.length ≤ 32) (p : Display × Bool) :
    Inverts (RowsLand cx r rows) p (drawRows cx r rows p) := by
  induction rows generalizing r p with
  | nil => exact inverts_refl.congr fun _ _ => by simp [RowsLand]
  | cons bits rest ih =>
    rw [List.length_cons] at hrows
    have hrest := ih (r + 1) (by omega)
    have hfirst := inverts_drawRow bits r cx (col := 0) (left := 8) (by omega) p
    refine (hfirst.trans (hrest _) ?_).congr fun _ _ => (rowsLand_cons ..).symm
    rintro R C hrow ⟨k, hk, hrow'⟩
    have hR := hrow.row_eq
    have hR' := hrow'.row_eq
    omega

/-! ## Draw (42_display.md R96) -/

section
variable {x y : Reg} {n : Nat} {s u : State}

/-- The rows read at `I` land where R96 says. -/
theorem rowsLand_bytesAtI_iff (R : Fin 32) (C : Fin 64) :
    RowsLand (s.getV x).toNat (s.getV y).toNat (s.bytesAtI n) R C ↔ SpriteBit s x y n R C := by
  rw [RowsLand, State.bytesAtI, Memory.readBytes_length]
  refine exists_congr fun row => and_congr_right fun hrow => ?_
  simp only [RowLands, BitLands, Memory.readBytes_getD _ _ _ _ hrow, Nat.zero_add]

theorem SpriteBit.congr (hI : u.I = s.I) (hmem : ∀ a, u.mem.read a = s.mem.read a) (hx : u.getV x = s.getV x)
    (hy : u.getV y = s.getV y) (R : Fin 32) (C : Fin 64) : SpriteBit u x y n R C ↔ SpriteBit s x y n R C := by
  simp only [SpriteBit, hI, hmem, hx, hy]

/-- The display and `hit` that the sprite at `I` leaves (R96). -/
def drawnAtI (x y : Reg) (n : Nat) (s : State) : Display × Bool :=
  drawSprite (s.getV x).toNat (s.getV y).toNat (s.bytesAtI n) s.disp

theorem inverts_drawnAtI (hn : n ≤ 15) : Inverts (SpriteBit s x y n) (s.disp, false) (drawnAtI x y n s) := by
  have hrows : (s.bytesAtI n).length ≤ 32 := by
    rw [State.bytesAtI, Memory.readBytes_length]
    omega
  exact (inverts_drawRows _ _ hrows _).congr rowsLand_bytesAtI_iff

/-- A draw whose rows are in memory raises nothing. -/
theorem exec_drw_of_fits (h : n = 0 ∨ s.I.toNat + n - 1 ≤ 4095) :
    exec (.drw x y n) s = .next (effect (.drw x y n) s) :=
  exec_eq_effect (if_neg (by omega))

theorem disp_effect_drw : (effect (.drw x y n) s).disp = (drawnAtI x y n s).1 := rfl

theorem getV_effect_drw : (effect (.drw x y n) s).getV 15 = flagByte (drawnAtI x y n s).2 :=
  State.getV_setV_self _ vf _

theorem flagByte_eq_zero_or_one (flag : Bool) : flagByte flag = 0 ∨ flagByte flag = 1 := by
  cases flag <;> decide

theorem flagByte_eq_one_iff (flag : Bool) : flagByte flag = 1 ↔ flag = true := by
  cases flag <;> decide

/-- A draw sets VF exactly when a set sprite bit lands on a set cell. -/
theorem getV_effect_drw_eq_one_iff (hn : n ≤ 15) :
    (effect (.drw x y n) s).getV 15 = 1 ↔ ∃ R C, s.disp.cell R C = true ∧ SpriteBit s x y n R C := by
  rw [getV_effect_drw, flagByte_eq_one_iff, (inverts_drawnAtI hn).hit]
  simp

end

/-- Settles O28: the sprite's bits land on different cells, each of which is inverted; past 4095 the exception is that
of R117's table. -/
theorem drawXorsTheSpriteIntoTheDisplay : Obligations.DrawXorsTheSpriteIntoTheDisplay := by
  intro x y n s hn
  have hwf : (Instr.drw x y n).WellFormed := decide_eq_true hn
  refine ⟨decodeWord_encode (i := .drw x y n) hwf, fun hfits => ?_,
    fun hpast => exec_raised (i := .drw x y n) (if_pos hpast)⟩
  refine ⟨_, exec_drw_of_fits hfits, (inverts_drawnAtI hn).cell, ?_, getV_effect_drw_eq_one_iff hn,
    fun r hr => getV_effect_of_not_mayWrite s (mt List.mem_singleton.2 hr),
    (unchangedBut_effect (.drw x y n) s).mono (by simp [changedParts])⟩
  rw [getV_effect_drw]
  exact flagByte_eq_zero_or_one _

/-- Settles O29: the second draw inverts the cells that the first inverted. -/
theorem drawingTwiceRestoresTheDisplay : Obligations.DrawingTwiceRestoresTheDisplay := by
  intro x y n s t u hn hfits hexec hdisp hI hmem hx hy
  cases (exec_drw_of_fits hfits).symm.trans hexec
  have hfirst := inverts_drawnAtI (s := s) (x := x) (y := y) hn
  have hbits := SpriteBit.congr (n := n) hI hmem hx hy
  have hsecond := (inverts_drawnAtI (s := u) hn).congr hbits
  refine ⟨_, exec_drw_of_fits (hI ▸ hfits), disp_eq_of_keeps (hfirst.cell_of_twice hdisp hsecond), ?_⟩
  rw [getV_effect_drw_eq_one_iff hn, hdisp, disp_effect_drw]
  simp only [hbits, hfirst.cell_and_iff]

end Sys2Proof.Machine
end

section
/-! PROOFS. Family 43_timers_input: the timer instructions and the tick, the skips on a key, the key wait, and the
`set_key` that ends it. -/

namespace Sys2Proof.Machine

/-! ## The timers (43_timers_input.md R99 to R103) -/

/-- Settles O30: each meaning is one write, to a register or to a timer. -/
theorem timerInstructionsMoveTheTimers : Obligations.TimerInstructionsMoveTheTimers :=
  fun x s =>
    ⟨⟨decodeWord_encode (i := .ldVxDt x) rfl, exec_of_setV rfl⟩,
     ⟨decodeWord_encode (i := .ldDtVx x) rfl, _, rfl, rfl, unchangedBut_setDt s _⟩,
     ⟨decodeWord_encode (i := .ldStVx x) rfl, _, rfl, rfl, unchangedBut_setSt s _⟩⟩

theorem unchangedBut_tickTimers (s : State) : UnchangedBut [.delay, .sound] s (tickTimers s) :=
  (unchangedBut_setDt s _).trans (unchangedBut_setSt _ _)

theorem soundOn_eq_true_iff (s : State) : soundOn s = true ↔ s.st.toNat ≠ 0 :=
  bne_iff_ne.trans BitVec.toNat_ne

/-- Settles O31: a tick is the decrement of each timer, whatever the status is. -/
theorem tickDecrementsTheCountersOnly : Obligations.TickDecrementsTheCountersOnly :=
  fun s => ⟨toNat_countDown s.dt, toNat_countDown s.st, unchangedBut_tickTimers s, soundOn_eq_true_iff s⟩

/-! ## The skips on a key (43_timers_input.md R104, R105) -/

section
variable {x : Reg} {s : State} {k : Key}

/-- With the number of a key in `V[x]`, the guarded meaning runs with that key. -/
theorem withIndex_of_key {i : Instr} {f : Key → State} (h : (s.getV x).toNat = k.val) :
    withIndex i x s f = .next (f k) := by
  have hk : Fin.ofNat 16 (s.getV x).toNat = k := by rw [h, Fin.ofNat_val_eq_self]
  rw [withIndex_of_le (by omega), hk]

theorem exec_skp_of_key (h : (s.getV x).toNat = k.val) : exec (.skp x) s = .next (s.skipIf (s.keyDown k)) :=
  withIndex_of_key h

theorem exec_sknp_of_key (h : (s.getV x).toNat = k.val) : exec (.sknp x) s = .next (s.skipIf (!s.keyDown k)) :=
  withIndex_of_key h

end

/-- Settles O32: with a key's number in `V[x]` each meaning is a skip on that key, and above 15 the exception is that of
R117's table. -/
theorem keySkipsReadTheNamedKey : Obligations.KeySkipsReadTheNamedKey :=
  fun x _ =>
    ⟨decodeWord_encode (i := .skp x) rfl, decodeWord_encode (i := .sknp x) rfl,
     fun _ hk =>
      ⟨exec_of_skipIf (exec_skp_of_key hk) Iff.rfl,
       exec_of_skipIf (exec_sknp_of_key hk) (iff_of_eq (Bool.not_eq_true' _))⟩,
     fun habove => ⟨exec_raised (i := .skp x) (if_pos habove), exec_raised (i := .sknp x) (if_pos habove)⟩⟩

/-! ## A key change (43_timers_input.md R107) -/

section
variable {s : State} {x : Reg} {k : Key} {pressed : Bool}

/-- A key-down transition during a wait sets the key and ends the wait. -/
theorem changeKey_eq_endWait (hwait : s.status = .waitingKey x) (hup : s.keyDown k = false) :
    changeKey k true s = endWait x k (s.setKeyBit k true) := by
  simp [changeKey, hwait, hup]

/-- Outside a wait, at a key-up, and with the key already down, a key change sets the key and does nothing else. -/
theorem changeKey_eq_setKeyBit
    (h : (∀ x, s.status ≠ .waitingKey x) ∨ pressed = false ∨ s.keyDown k = true) :
    changeKey k pressed s = s.setKeyBit k pressed := by
  unfold changeKey
  split
  next x hwait =>
    have hno : (pressed && !s.keyDown k) = false := by
      rcases h with hnot | rfl | hdown
      · exact absurd hwait (hnot x)
      · rfl
      · rw [hdown, Bool.not_true, Bool.and_false]
    rw [hno]
    rfl
  · rfl
  · rfl

/-- Whether it ends a wait or not, a key change sets its own key and no other. -/
theorem keyDown_changeKey (k : Key) (pressed : Bool) (s : State) (p : Key) :
    (changeKey k pressed s).keyDown p = if p = k then pressed else s.keyDown p := by
  rw [← State.keyDown_setKeyBit]
  unfold changeKey
  split
  · split <;> rfl
  · rfl
  · rfl

/-- The end of a wait writes one register and the status. -/
theorem unchangedBut_endWait (x : Reg) (k : Key) (s : State) : UnchangedBut [.regs, .status] s (endWait x k s) :=
  (unchangedBut_setV s x _).trans (unchangedBut_setStatus _ _)

/-- The waiting register receives the number of the key. -/
theorem toNat_getV_endWait (x : Reg) (k : Key) (s : State) : ((endWait x k s).getV x).toNat = k.val := by
  have hk : k.val < 2 ^ 8 := k.isLt.trans (by decide)
  have hx : (endWait x k s).getV x = BitVec.ofNat 8 k.val := s.getV_setV_self x _
  rw [hx, BitVec.toNat_ofNat, Nat.mod_eq_of_lt hk]

theorem setKey_of_key (k : Key) (pressed : Bool) (s : State) :
    setKey k.val pressed s = some (changeKey k pressed s) :=
  dif_pos k.isLt

theorem setKey_of_above {k : Nat} (h : k > 15) : setKey k pressed s = none :=
  dif_neg (Nat.not_lt.2 h)

end

/-! ## The key wait (43_timers_input.md R106, R107) -/

/-- Settles O33: `FX0A` writes the status only; during the wait a step does nothing, a tick does not see the status, and
a key-up is no transition. -/
theorem keyWaitSuspendsTheEngine : Obligations.KeyWaitSuspendsTheEngine := by
  intro x s
  refine ⟨decodeWord_encode (i := .ldVxK x) rfl, ⟨_, rfl, rfl, rfl, unchangedBut_setStatus s _⟩, fun hwait => ?_⟩
  have hnotRunning : s.status ≠ .running := hwait ▸ nofun
  refine ⟨step_of_not_running hnotRunning, (outcomeOf_eq_waitingForKey_iff s).2 ⟨x, hwait⟩, toNat_countDown s.dt, hwait,
    fun k hk => ?_⟩
  have hkeyUp : setKey k false s = some (s.setKeyBit ⟨k, hk⟩ false) :=
    (setKey_of_key ⟨k, hk⟩ false s).trans (congrArg some (changeKey_eq_setKeyBit (.inr (.inl rfl))))
  exact ⟨_, hkeyUp, hwait, unchangedBut_setKeyBit s _ _⟩

/-- Settles O34: every accepted call sets its key alone; the key-down transition during a wait ends it, and every other
call is the key write only. -/
theorem keyDownTransitionEndsTheWait : Obligations.KeyDownTransitionEndsTheWait := by
  intro k pressed s
  refine ⟨fun habove => congrArg (settle s .done .keyRejected) (setKey_of_above habove), ?_⟩
  rintro q rfl
  refine ⟨changeKey q pressed s, congrArg (settle s .done .keyRejected) (setKey_of_key q pressed s), ?_, fun p hp => ?_,
    ?_, fun hno => ?_⟩
  · rw [keyDown_changeKey, if_pos rfl]
  · rw [keyDown_changeKey, if_neg hp]
  · rintro x hwait rfl hup
    rw [changeKey_eq_endWait hwait hup]
    exact ⟨toNat_getV_endWait x q _, rfl, regsUnchangedBut_setV (s.setKeyBit q true) x _,
      (unchangedBut_setKeyBit s q true).trans (unchangedBut_endWait x q _)⟩
  · rw [changeKey_eq_setKeyBit hno]
    exact unchangedBut_setKeyBit s q pressed

end Sys2Proof.Machine
end

section
/-! PROOFS. Family 44_index_memory: the index register loaded, added to and pointed at a glyph, the decimal digits
stored, and the bulk transfers, each with its value, its frame and its fault. -/

namespace Sys2Proof.Machine

/-! ## The index register (44_index_memory.md R109 to R111) -/

theorem toNat_word_add_byte (i : Word) (v : Byte) :
    (i + v.zeroExtend 16).toNat = (i.toNat + v.toNat) % 65536 := by
  rw [BitVec.toNat_add, BitVec.zeroExtend_eq_setWidth, BitVec.toNat_setWidth_of_le (by decide)]

/-- Settles O35: each meaning is one write of the index register. -/
theorem indexInstructionsSetAndAdd : Obligations.IndexInstructionsSetAndAdd :=
  ⟨fun nnn s => ⟨decodeWord_encode (i := .ldI nnn) rfl, _, rfl, toNat_addrOperand nnn, unchangedBut_setI s _⟩,
   fun x s => ⟨decodeWord_encode (i := .addIVx x) rfl, _, rfl, toNat_word_add_byte s.I _, unchangedBut_setI s _⟩⟩

/-- With a digit in `V[x]`, `I` is the address of its glyph, `FONT_BASE` being 0. -/
theorem toNat_I_effect_ldFVx {x : Reg} {s : State} (h : (s.getV x).toNat ≤ 15) :
    (effect (.ldFVx x) s).I.toNat = 0x000 + 5 * (s.getV x).toNat := by
  have hdigit : (s.getV x).toNat % 16 = (s.getV x).toNat := Nat.mod_eq_of_lt (Nat.lt_succ_of_le h)
  have hI : (effect (.ldFVx x) s).I.toNat = (0 + 5 * ((s.getV x).toNat % 16)) % 65536 := BitVec.toNat_ofNat _ _
  rw [hI, hdigit]
  omega

/-- Settles O36: with a digit in `V[x]` the instruction leaves its effect, and above 15 the exception of R117's table. -/
theorem fontInstructionPointsAtTheGlyph : Obligations.FontInstructionPointsAtTheGlyph :=
  fun x s =>
    ⟨decodeWord_encode (i := .ldFVx x) rfl,
     fun hdigit => ⟨_, exec_eq_effect (i := .ldFVx x) (if_neg (Nat.not_lt.2 hdigit)), toNat_I_effect_ldFVx hdigit,
      unchangedBut_effect (.ldFVx x) s⟩,
     fun habove => exec_raised (i := .ldFVx x) (if_pos habove)⟩

/-! ## Bytes stored at `I` (44_index_memory.md R112, R113) -/

section
variable {s : State} {x : Reg} {bytes : List Byte}

/-- The k-th of the bytes stored at `I` is read at `I + k`. -/
theorem State.read_storeAtI_of_lt {k : Nat} (h : k < bytes.length) :
    (s.storeAtI bytes).mem.read (s.I.toNat + k) = bytes.getD k 0 := by
  rw [State.storeAtI, State.setMem_mem, Memory.read_writeBytes, if_pos (by omega), Nat.add_sub_cancel_left]

/-- Outside the stored bytes a store at `I` changes no byte. -/
theorem State.read_storeAtI_of_outside {a : Nat} (h : a < s.I.toNat ∨ s.I.toNat + bytes.length ≤ a) :
    (s.storeAtI bytes).mem.read a = s.mem.read a := by
  rw [State.storeAtI, State.setMem_mem, Memory.read_writeBytes, if_neg (by omega)]

/-- A number up to a byte's value is itself as a byte: no digit of R112 is cut off. -/
theorem toNat_ofNat_of_le_byte {v : Byte} {d : Nat} (h : d ≤ v.toNat) : (BitVec.ofNat 8 d).toNat = d :=
  Nat.mod_eq_of_lt (h.trans_lt v.isLt)

/-- The byte at `I + k` after `FX33` is the k-th digit. -/
theorem read_effect_ldBVx {k : Nat} (h : k < 3) :
    (effect (.ldBVx x) s).mem.read (s.I.toNat + k) = (bcdDigits (s.getV x)).getD k 0 :=
  State.read_storeAtI_of_lt h

end

/-- Settles O37: when three bytes fit the instruction stores the three digits, and past 4095 it raises the exception of
R117's table. -/
theorem bcdStoresThreeDigitsAtI : Obligations.BcdStoresThreeDigitsAtI := by
  intro x s
  refine ⟨decodeWord_encode (i := .ldBVx x) rfl, fun hfits => ?_, fun hpast => exec_raised (i := .ldBVx x) (if_pos hpast)⟩
  refine ⟨_, exec_eq_effect (i := .ldBVx x) (if_neg (Nat.not_lt.2 hfits)), ?hundreds, ?tens, ?ones,
    fun a ha => State.read_storeAtI_of_outside ha, unchangedBut_effect (.ldBVx x) s⟩
  case hundreds =>
    exact (congrArg BitVec.toNat (read_effect_ldBVx (k := 0) (by decide))).trans
      (toNat_ofNat_of_le_byte (Nat.div_le_self _ _))
  case tens =>
    exact (congrArg BitVec.toNat (read_effect_ldBVx (by decide))).trans
      (toNat_ofNat_of_le_byte ((Nat.mod_le _ _).trans (Nat.div_le_self _ _)))
  case ones =>
    exact (congrArg BitVec.toNat (read_effect_ldBVx (by decide))).trans (toNat_ofNat_of_le_byte (Nat.mod_le _ _))

/-! ## Bulk transfers (44_index_memory.md R113 to R115) -/

/-- A bulk transfer changes `I` at most, besides what it moves. -/
theorem append_bulkIndexParts_subset (p : Part) : [p] ++ bulkIndexParts ⊆ [p, .index] :=
  List.cons_subset_cons p fun _ hq => List.mem_singleton.2 (mem_bulkIndexParts.1 hq).2

section
variable {s : State} {x : Reg}

/-- `FX55` changes no byte outside `I ..= I + x`. -/
theorem read_effect_ldMemVx_of_outside {a : Nat} (h : a < s.I.toNat ∨ s.I.toNat + x.val < a) :
    (effect (.ldMemVx x) s).mem.read a = s.mem.read a := by
  rw [effect, State.setI_mem]
  exact State.read_storeAtI_of_outside (by rwa [State.regsUpTo_length])

/-- After `FX65` a register up to `x` holds the byte at `I` plus its number, and one above `x` its old value. -/
theorem getV_effect_ldVxMem (k : Reg) :
    (effect (.ldVxMem x) s).getV k = if k ≤ x then s.mem.read (s.I.toNat + k.val) else s.getV k := by
  rw [effect, State.setI_getV, State.getV_loadRegsUpTo]
  refine ite_congr rfl (fun hk => ?_) fun _ => rfl
  exact Memory.readBytes_getD s.mem _ _ _ (Nat.lt_succ_of_le hk)

end

/-- Settles O38: when the bytes fit the instruction stores the registers, and past 4095 it raises the exception of R117's
table. -/
theorem bulkStoreWritesV0ToVxAtI : Obligations.BulkStoreWritesV0ToVxAtI :=
  fun x s =>
    ⟨decodeWord_encode (i := .ldMemVx x) rfl,
     fun hfits => ⟨_, exec_ldMemVx_of_fits hfits, fun _ => read_effect_ldMemVx, fun _ => read_effect_ldMemVx_of_outside,
      toNat_indexAfterTransfer x s.I,
      (unchangedBut_effect (.ldMemVx x) s).mono (append_bulkIndexParts_subset _)⟩,
     fun hpast => exec_raised (i := .ldMemVx x) (if_pos hpast)⟩

/-- Settles O39: when the bytes fit the instruction loads the registers, and past 4095 it raises the exception of R117's
table. -/
theorem bulkLoadReadsV0ToVxFromI : Obligations.BulkLoadReadsV0ToVxFromI :=
  fun x s =>
    ⟨decodeWord_encode (i := .ldVxMem x) rfl,
     fun hfits => ⟨_, exec_eq_effect (i := .ldVxMem x) (if_neg (Nat.not_lt.2 hfits)), getV_effect_ldVxMem,
      toNat_indexAfterTransfer x s.I,
      (unchangedBut_effect (.ldVxMem x) s).mono (append_bulkIndexParts_subset _)⟩,
     fun hpast => exec_raised (i := .ldVxMem x) (if_pos hpast)⟩

end Sys2Proof.Machine
end

section
/-! PROOFS. Family 60_exceptions: every step keeps the invariant, a step halts exactly for the exceptions of R117's table
and changes only the status then, a halted core stays halted, and a restore gives a capture back. -/

namespace Sys2Proof.Machine

/-! ## The invariant -/

/-- Settles O49: a running step records the fault at the `pc` it keeps, or halts nothing and stores inside memory; any
other step changes nothing. -/
theorem everyStepKeepsTheInvariant : Obligations.EveryStepKeepsTheInvariant :=
  fun _ _ => inv_step

/-! ## A step that halts (60_exceptions.md R117, R118) -/

section
variable {s t : State} {info : FaultInfo}

theorem State.safe_of_running (hrun : s.status = .running) : s.Safe :=
  fun _ hinfo => nomatch hrun.symm.trans hinfo

/-- A step that raises nothing does not halt. -/
theorem safe_of_step (hrun : s.status = .running) (hfault : faultOf s = none) (hstep : step s = .next t) : t.Safe := by
  rcases step_running_cases hrun with ⟨_, hsome, _⟩ | ⟨_, _, _, _, _, hnext, hcompletes⟩
  · cases hfault.symm.trans hsome
  · cases hstep.symm.trans hnext
    exact hcompletes.safe (State.safe_of_running (s := s.advancePc) hrun)

/-- A running step halts exactly with the fault of the instruction at `pc`. -/
theorem halted_iff_of_step (hrun : s.status = .running) (hstep : step s = .next t) :
    t.status = .halted info ↔ faultOf s = some info := by
  rcases hfault : faultOf s with _ | info'
  · exact ⟨fun hinfo => absurd hinfo (safe_of_step hrun hfault hstep info), nofun⟩
  · cases hstep.symm.trans (step_eq_halted hrun hfault)
    rw [State.setStatus_status, Status.halted.injEq, Option.some.injEq]

/-- The fault of the instruction at `pc` names that address, whichever of fetch, decode and execution raises it. -/
theorem addr_of_faultOf (hfault : faultOf s = some info) : info.addr = s.pc := by
  by_cases hpc : s.pc.toNat + 1 ≤ 4095
  · rcases hd : decodeWord (wordAtPc s) with e | i
    · cases hfault.symm.trans (faultOf_of_error hpc hd)
      rfl
    · obtain ⟨_, _, rfl⟩ := Option.map_eq_some_iff.1 ((faultOf_of_ok hpc hd).symm.trans hfault)
      rfl
  · cases hfault.symm.trans (faultOf_of_past hpc)
    rfl

end

/-- Settles O41: the step records the fault of R117's table, and with none it completes without halting. -/
theorem aStepRaisesExactlyTheListedExceptions : Obligations.AStepRaisesExactlyTheListedExceptions := by
  intro s hrun
  obtain ⟨t, hstep⟩ := step_eq_next s
  exact ⟨t, hstep, fun _ => halted_iff_of_step hrun hstep⟩

/-- Settles O42: the step that halts has a fault to record, and the record is its only write. -/
theorem aFaultingStepChangesOnlyTheStatus : Obligations.AFaultingStepChangesOnlyTheStatus := by
  intro s t info hrun hstep hhalted
  have hfault : faultOf s = some info := (halted_iff_of_step hrun hstep).1 hhalted
  cases hstep.symm.trans (step_eq_halted hrun hfault)
  exact ⟨addr_of_faultOf hfault, hfault, rfl, unchangedBut_setStatus s _⟩

/-! ## The halted core (60_exceptions.md R120) -/

/-- Settles O43: the engine does not run, a tick does not see the status, and a key change ends no wait. -/
theorem haltedIsSticky : Obligations.HaltedIsSticky := by
  intro s info hhalted
  have hnotRunning : s.status ≠ .running := hhalted ▸ nofun
  have hnotWaiting (x : Reg) : s.status ≠ .waitingKey x := hhalted ▸ nofun
  refine ⟨step_of_not_running hnotRunning, (outcomeOf_eq_halted_iff s _).2 ⟨info, hhalted, rfl⟩, toNat_countDown s.dt,
    toNat_countDown s.st, fun k pressed => ⟨_, setKey_of_key k pressed s, ?_, ?_⟩⟩
  · rw [keyDown_changeKey, if_pos rfl]
  · rw [changeKey_eq_setKeyBit (.inl hnotWaiting)]
    exact unchangedBut_setKeyBit s k pressed

/-! ## Capture and restore (60_exceptions.md R130, R131) -/

section
variable (s u : State)

/-- The image of a capture has the version tag that `restore` checks, and content. -/
theorem restore_image (c : Snapshot) : restore c.image u = some (applySnapshot c u) :=
  if_pos rfl

theorem restore_of_invalid {img : SnapshotImage} (h : img.version ≠ Config.snapshotVersion ∨ img.content = none) :
    restore img u = none := by
  unfold restore
  split_ifs with hversion
  · rw [h.resolve_left (not_not_intro hversion), Option.map_none]
  · rfl

/-- A capture applied to another state gives every captured part back. -/
theorem unchangedBut_applySnapshot_capture : UnchangedBut [.keys, .draws] s (applySnapshot (capture s) u) := by
  intro p hp
  cases p with
  | keys | draws => simp at hp
  | regs | stack => exact fun _ => rfl
  | display => exact fun _ _ => rfl
  | memory => exact fun _ => rfl
  | index | pc | sp | delay | sound | status => rfl

/-- What a capture leaves out are the keys and the count of draws only. -/
theorem applySnapshot_capture_eq (hkey : u.key = s.key) (hdraws : u.draws = s.draws) :
    applySnapshot (capture s) u = s := by
  rw [applySnapshot, hkey, hdraws]
  rfl

end

/-- Settles O53: a capture's image is accepted, and applying it replaces every part but the keys and the draws. -/
theorem restoreGivesTheCapturedStateBack : Obligations.RestoreGivesTheCapturedStateBack := by
  intro s u
  have hrestore : hostOp (.restore (capture s).image) u = (applySnapshot (capture s) u, .ok) :=
    congrArg (settle u .ok .invalidSnapshot) (restore_image u (capture s))
  exact ⟨rfl,
    ⟨_, hrestore, unchangedBut_applySnapshot_capture s u, fun _ => rfl, applySnapshot_capture_eq s u⟩,
    fun _ hinvalid => congrArg (settle u .ok .invalidSnapshot) (restore_of_invalid u hinvalid)⟩

end Sys2Proof.Machine
end

section
/-! PROOFS. Family 70_reset_and_hazards: what a load writes and what it leaves as after reset, the fault after an empty
image, and the idle loop. -/

namespace Sys2Proof.Machine

/-! ## The state after a load (70_reset_and_hazards.md R138) -/

/-- The state a load that fits leaves. -/
def loaded (image : List Byte) (s : State) : State :=
  { State.reset with mem := State.reset.mem.writeBytes programBase image, key := s.key, draws := s.draws }

section
variable {image : List Byte} (s : State)

theorem load_of_tooLong (h : programBase + image.length > 4096) : load image s = none :=
  if_pos h

theorem load_of_fits (h : programBase + image.length ≤ 4096) : load image s = some (loaded image s) :=
  if_neg (Nat.not_lt.2 h)

/-- The image's bytes stand at the program base in order. -/
theorem read_loaded_of_lt {k : Nat} (h : k < image.length) :
    (loaded image s).mem.read (programBase + k) = image[k] := by
  rw [loaded, Memory.read_writeBytes, if_pos (by omega), Nat.add_sub_cancel_left, List.getD_eq_getElem image 0 h]

theorem read_loaded_of_outside {a : Nat} (h : a < programBase ∨ programBase + image.length ≤ a) :
    (loaded image s).mem.read a = State.reset.mem.read a := by
  rw [loaded, Memory.read_writeBytes, if_neg (by omega)]

theorem unchangedBut_loaded : UnchangedBut [.memory, .keys, .draws] State.reset (loaded image s) := by
  intro p hp
  cases p with
  | memory | keys | draws => simp at hp
  | regs | stack => exact fun _ => rfl
  | display => exact fun _ _ => rfl
  | index | pc | sp | delay | sound | status => rfl

/-- After an empty image the engine fetches two of the zero bytes that reset leaves past the font. -/
theorem wordAtPc_loaded_nil : wordAtPc (loaded [] s) = 0x0000 :=
  congrArg₂ (· ++ ·) (Memory.initial_of_past_font (a := 0x200) (by decide))
    (Memory.initial_of_past_font (a := 0x201) (by decide))

/-- The word 0000 decodes to nothing, so the first step after an empty image has this fault to record. -/
theorem faultOf_loaded_nil : faultOf (loaded [] s) = some ⟨.decodeError, 0x200, some 0x0000, none⟩ := by
  have hpc : (loaded [] s).pc.toNat + 1 ≤ 4095 := (by decide : 0x200 + 1 ≤ 4095)
  have hd : decodeWord (wordAtPc (loaded [] s)) = decodeWord 0x0000 := congrArg decodeWord (wordAtPc_loaded_nil s)
  rw [faultOf_of_error hpc (hd.trans rfl), wordAtPc_loaded_nil]
  rfl

end

/-- Settles O52: the load leaves `loaded`, read byte by byte, and an empty image leaves zero bytes to fetch. -/
theorem loadResetsAndWritesTheImage : Obligations.LoadResetsAndWritesTheImage := by
  intro image s
  refine ⟨fun hlong => congrArg (settle s .ok .loadFailed) (load_of_tooLong s hlong), fun hfits => ?_⟩
  refine ⟨loaded image s, congrArg (settle s .ok .loadFailed) (load_of_fits s hfits), fun k => read_loaded_of_lt s,
    fun a => read_loaded_of_outside s, fun _ => rfl, unchangedBut_loaded s, rfl, ?_⟩
  rintro rfl
  exact ⟨_, step_eq_halted rfl (faultOf_loaded_nil s), rfl⟩

/-! ## The idle loop (70_reset_and_hazards.md R141, 41_control.md R87) -/

/-- A jump to the address of its own word undoes the fetch advance. -/
theorem exec_jp_advancePc_of_self {nnn : BitVec 12} {s : State} (h : nnn.toNat = s.pc.toNat) :
    exec (.jp nnn) s.advancePc = .next s := by
  have htarget : addrOperand nnn = s.pc := BitVec.eq_of_toNat_eq ((toNat_addrOperand nnn).trans h)
  have heffect : effect (.jp nnn) s.advancePc = s := congrArg s.setPc htarget
  rw [exec_eq_effect (i := .jp nnn) rfl, heffect]

/-- Settles O54: the step executes the jump at `pc`, and the jump goes back to `pc`. -/
theorem theIdleLoopStepsToItself : Obligations.TheIdleLoopStepsToItself := by
  rintro s ⟨hrun, hpc, nnn, hword, hself⟩
  have hd : decodeWord (wordAtPc s) = .ok (.jp nnn) := hword ▸ decodeWord_encode (i := .jp nnn) rfl
  exact (step_eq_exec hrun hpc hd).trans (exec_jp_advancePc_of_self hself)

end Sys2Proof.Machine
end
